-- ==== Sys2Proof/Word.lean ====
section
/-! DEFINITION. The word types of the engine: 8-bit bytes, 16-bit words, 12-bit addresses, register indices
(00_scope.md R7, R11, R13; every value is unsigned). -/

namespace Sys2Proof

/-- A u8: a register V0..VF, a timer, a byte of memory (R11). -/
abbrev Byte := BitVec 8

/-- A u16: PC, I, a return address, an opcode (R11). -/
abbrev Word := BitVec 16

/-- The 12-bit field nnn of an opcode (R13). -/
abbrev Addr12 := BitVec 12

/-- A register index 0..15, from the field x or y of an opcode (R13, R20, R93). -/
abbrev RegIdx := Fin 16

/-- A key number 0..15 (R7, R43). -/
abbrev KeyIdx := Fin 16

end Sys2Proof
end

