-- ==== Sys2Proof/Config.lean ====
section
/-! DEFINITION. The parameters of 00_scope.md R8, fixed for a machine, with their defaults; and the free byte
(R9, R190, R191, R311). The list of parameters is closed (R8). -/

namespace Sys2Proof

/-- RESET_REGS (R22, R311). -/
inductive ResetRegs where
  | zero
  | arbitrary
  deriving DecidableEq, Repr

/-- FONT_DIGIT_WIDE and KEY_INDEX_WIDE: what a digit or key number above 15 does (R242, R196). -/
inductive WidePolicy where
  | fault
  | lowNibble
  deriving DecidableEq, Repr

/-- SYS_POLICY (R125). -/
inductive SysPolicy where
  | fault
  | nop
  deriving DecidableEq, Repr

/-- SHIFT_SOURCE (R158, R160). -/
inductive ShiftSource where
  | vx
  | vy
  deriving DecidableEq, Repr

/-- LOADSTORE_I (R244, R245). -/
inductive LoadStoreI where
  | unchanged
  | plusXPlus1
  | plusX
  deriving DecidableEq, Repr

/-- JUMP_OFFSET_REG (R134). -/
inductive JumpOffsetReg where
  | v0
  | vx
  deriving DecidableEq, Repr

/-- READ_SEQ_BOUND (R63). -/
inductive ReadSeqBound where
  | legacy16
  | exact
  deriving DecidableEq, Repr

/-- DRAW_ZERO_HEIGHT (R193). -/
inductive DrawZeroHeight where
  | fault
  | empty
  deriving DecidableEq, Repr

structure Config where
  resetRegs      : ResetRegs
  fontBase       : Word
  fontData       : List Byte
  fontDigitWide  : WidePolicy
  keyIndexWide   : WidePolicy
  sysPolicy      : SysPolicy
  shiftSource    : ShiftSource
  logicVfReset   : Bool
  loadStoreI     : LoadStoreI
  jumpOffsetReg  : JumpOffsetReg
  readSeqBound   : ReadSeqBound
  drawZeroHeight : DrawZeroHeight
  strict59       : Bool
  deriving DecidableEq, Repr

/-- The values R8 allows: FONT_DATA has 80 bytes and FONT_BASE + 80 ≤ 0x200. -/
def Config.wf (c : Config) : Bool :=
  c.fontData.length == 80 && decide (c.fontBase.toNat + 80 ≤ 0x200)

/-- The default FONT_DATA: 16 glyphs of 5 rows (10_state.md R40; PRESUMED by the spec, log entry 15). -/
def Config.defaultFont : List Byte :=
  [0xF0, 0x90, 0x90, 0x90, 0xF0] ++ [0x20, 0x60, 0x20, 0x20, 0x70] ++
  [0xF0, 0x10, 0xF0, 0x80, 0xF0] ++ [0xF0, 0x10, 0xF0, 0x10, 0xF0] ++
  [0x90, 0x90, 0xF0, 0x10, 0x10] ++ [0xF0, 0x80, 0xF0, 0x10, 0xF0] ++
  [0xF0, 0x80, 0xF0, 0x90, 0xF0] ++ [0xF0, 0x10, 0x20, 0x40, 0x40] ++
  [0xF0, 0x90, 0xF0, 0x90, 0xF0] ++ [0xF0, 0x90, 0xF0, 0x10, 0xF0] ++
  [0xF0, 0x90, 0xF0, 0x90, 0x90] ++ [0xE0, 0x90, 0xE0, 0x90, 0xE0] ++
  [0xF0, 0x80, 0x80, 0x80, 0xF0] ++ [0xE0, 0x90, 0x90, 0x90, 0xE0] ++
  [0xF0, 0x80, 0xF0, 0x80, 0xF0] ++ [0xF0, 0x80, 0xF0, 0x80, 0x80]

/-- The defaults of R8's table. -/
def Config.default : Config where
  resetRegs      := .zero
  fontBase       := 0x000
  fontData       := Config.defaultFont
  fontDigitWide  := .fault
  keyIndexWide   := .fault
  sysPolicy      := .fault
  shiftSource    := .vx
  logicVfReset   := false
  loadStoreI     := .unchanged
  jumpOffsetReg  := .v0
  readSeqBound   := .legacy16
  drawZeroHeight := .fault
  strict59       := false

/-- The n-th free byte of the environment: any u8, with no distribution, no seed and no relation between
successive draws (R190, R191). It has no body, so nothing about its values can be proved.
DESIGN CHOICE, log entry 3 (safe). -/
opaque Config.freeByte : Nat → Byte

end Sys2Proof
end

