-- ==== Sys2Proof/Syntax.lean ====
section
/-! DEFINITION. The instructions: one constructor per row of spec/opcode_table.json, in the table's order
(30_encoding.md R98). The operands are the fields each format names (R91, R92). -/

namespace Sys2Proof

inductive Instr where
  /-- `SYS addr`, 0nnn with the word neither 00E0 nor 00EE (40_flow.md R125). -/
  | sys (nnn : Addr12)
  /-- `CLS`, 00E0 (R126). -/
  | cls
  /-- `RET`, 00EE (R127). -/
  | ret
  /-- `JP addr`, 1nnn (R128). -/
  | jp (nnn : Addr12)
  /-- `CALL addr`, 2nnn (R129). -/
  | call (nnn : Addr12)
  /-- `SE Vx, byte`, 3xkk (R130). -/
  | seByte (x : RegIdx) (kk : Byte)
  /-- `SNE Vx, byte`, 4xkk (R131). -/
  | sneByte (x : RegIdx) (kk : Byte)
  /-- `SE Vx, Vy`, 5xy0, or any 5xyn under STRICT_5_9 = false (R132, R100). -/
  | seReg (x y : RegIdx)
  /-- `LD Vx, byte`, 6xkk (R150). -/
  | ldByte (x : RegIdx) (kk : Byte)
  /-- `ADD Vx, byte`, 7xkk (R151). -/
  | addByte (x : RegIdx) (kk : Byte)
  /-- `LD Vx, Vy`, 8xy0 (R152). -/
  | ldReg (x y : RegIdx)
  /-- `OR Vx, Vy`, 8xy1 (R153). -/
  | orReg (x y : RegIdx)
  /-- `AND Vx, Vy`, 8xy2 (R154). -/
  | andReg (x y : RegIdx)
  /-- `XOR Vx, Vy`, 8xy3 (R155). -/
  | xorReg (x y : RegIdx)
  /-- `ADD Vx, Vy`, 8xy4 (R156). -/
  | addReg (x y : RegIdx)
  /-- `SUB Vx, Vy`, 8xy5 (R157). -/
  | subReg (x y : RegIdx)
  /-- `SHR Vx {, Vy}`, 8xy6 (R158). -/
  | shr (x y : RegIdx)
  /-- `SUBN Vx, Vy`, 8xy7 (R159). -/
  | subnReg (x y : RegIdx)
  /-- `SHL Vx {, Vy}`, 8xyE (R160). -/
  | shl (x y : RegIdx)
  /-- `SNE Vx, Vy`, 9xy0, or any 9xyn under STRICT_5_9 = false (R133, R100). -/
  | sneReg (x y : RegIdx)
  /-- `LD I, addr`, Annn (44_index_memory.md R240). -/
  | ldI (nnn : Addr12)
  /-- `JP V0, addr`, Bnnn (R134). -/
  | jpV0 (nnn : Addr12)
  /-- `RND Vx, byte`, Cxkk (42_rand_draw_keys.md R190). -/
  | rnd (x : RegIdx) (kk : Byte)
  /-- `DRW Vx, Vy, nibble`, Dxyn (R193). -/
  | drw (x y : RegIdx) (n : Fin 16)
  /-- `SKP Vx`, Ex9E (R198). -/
  | skp (x : RegIdx)
  /-- `SKNP Vx`, ExA1 (R199). -/
  | sknp (x : RegIdx)
  /-- `LD Vx, DT`, Fx07 (43_timers.md R220). -/
  | ldVxDT (x : RegIdx)
  /-- `LD Vx, K`, Fx0A (R201). -/
  | ldVxK (x : RegIdx)
  /-- `LD DT, Vx`, Fx15 (R221). -/
  | ldDTVx (x : RegIdx)
  /-- `LD ST, Vx`, Fx18 (R222). -/
  | ldSTVx (x : RegIdx)
  /-- `ADD I, Vx`, Fx1E (R241). -/
  | addI (x : RegIdx)
  /-- `LD F, Vx`, Fx29 (R242). -/
  | ldF (x : RegIdx)
  /-- `LD B, Vx`, Fx33 (R243). -/
  | ldB (x : RegIdx)
  /-- `LD [I], Vx`, Fx55 (R244). -/
  | storeRegs (x : RegIdx)
  /-- `LD Vx, [I]`, Fx65 (R245). -/
  | loadRegs (x : RegIdx)
  deriving DecidableEq, Repr

end Sys2Proof
end

