-- ==== Sys2Proof/Decode.lean ====
section
/-! DEFINITION. The decoder, total on every word and rejecting by name, and after it the encoder
(30_encoding.md R90 to R104). The bit patterns are the spec's own, from general knowledge (log entry 15). -/

namespace Sys2Proof

/-! ## Fields (00_scope.md R13, 30_encoding.md R91) -/

/-- op = op16[15:12]. -/
def fieldOp (w : Word) : BitVec 4 := w.extractLsb' 12 4

/-- x = op16[11:8]. -/
def fieldX (w : Word) : RegIdx := (w.extractLsb' 8 4).toFin

/-- y = op16[7:4]. -/
def fieldY (w : Word) : RegIdx := (w.extractLsb' 4 4).toFin

/-- n = op16[3:0]. -/
def fieldN (w : Word) : Fin 16 := (w.extractLsb' 0 4).toFin

/-- kk = op16[7:0]. -/
def fieldKK (w : Word) : Byte := w.extractLsb' 0 8

/-- nnn = op16[11:0]. -/
def fieldNNN (w : Word) : Addr12 := w.extractLsb' 0 12

/-! ## Decoding -/

/-- What a word decodes to: an instruction, or the rejection IllegalOpcode with the word (R104). -/
inductive Decoded where
  | instr (i : Instr)
  | illegal (w : Word)
  deriving DecidableEq, Repr

/-- Family 0 is selected by the whole word (R99). -/
def decode0 (w : Word) : Instr :=
  if w = 0x00E0#16 then .cls else if w = 0x00EE#16 then .ret else .sys (fieldNNN w)

/-- Family 5, and family 9 in the same way: by op alone, or by n = 0 under STRICT_5_9 (R100). -/
def decode59 (strict : Bool) (w : Word) (i : Instr) : Decoded :=
  if strict = true ∧ fieldN w ≠ 0 then .illegal w else .instr i

/-- Family 8 is selected by n (R101). -/
def decode8 (w : Word) : Decoded :=
  match w.extractLsb' 0 4 with
  | 0x0#4 => .instr (.ldReg (fieldX w) (fieldY w))
  | 0x1#4 => .instr (.orReg (fieldX w) (fieldY w))
  | 0x2#4 => .instr (.andReg (fieldX w) (fieldY w))
  | 0x3#4 => .instr (.xorReg (fieldX w) (fieldY w))
  | 0x4#4 => .instr (.addReg (fieldX w) (fieldY w))
  | 0x5#4 => .instr (.subReg (fieldX w) (fieldY w))
  | 0x6#4 => .instr (.shr (fieldX w) (fieldY w))
  | 0x7#4 => .instr (.subnReg (fieldX w) (fieldY w))
  | 0xE#4 => .instr (.shl (fieldX w) (fieldY w))
  | _ => .illegal w

/-- Family E is selected by kk (R102). -/
def decodeE (w : Word) : Decoded :=
  match fieldKK w with
  | 0x9E#8 => .instr (.skp (fieldX w))
  | 0xA1#8 => .instr (.sknp (fieldX w))
  | _ => .illegal w

/-- Family F is selected by kk (R103). -/
def decodeF (w : Word) : Decoded :=
  match fieldKK w with
  | 0x07#8 => .instr (.ldVxDT (fieldX w))
  | 0x0A#8 => .instr (.ldVxK (fieldX w))
  | 0x15#8 => .instr (.ldDTVx (fieldX w))
  | 0x18#8 => .instr (.ldSTVx (fieldX w))
  | 0x1E#8 => .instr (.addI (fieldX w))
  | 0x29#8 => .instr (.ldF (fieldX w))
  | 0x33#8 => .instr (.ldB (fieldX w))
  | 0x55#8 => .instr (.storeRegs (fieldX w))
  | 0x65#8 => .instr (.loadRegs (fieldX w))
  | _ => .illegal w

/-- Dispatch on op, and on the sub-discriminant of the families 0, 8, E, F (R97, R98). It is a function of the
word and of STRICT_5_9 alone (R96). -/
def decode (strict : Bool) (w : Word) : Decoded :=
  match fieldOp w with
  | 0x0#4 => .instr (decode0 w)
  | 0x1#4 => .instr (.jp (fieldNNN w))
  | 0x2#4 => .instr (.call (fieldNNN w))
  | 0x3#4 => .instr (.seByte (fieldX w) (fieldKK w))
  | 0x4#4 => .instr (.sneByte (fieldX w) (fieldKK w))
  | 0x5#4 => decode59 strict w (.seReg (fieldX w) (fieldY w))
  | 0x6#4 => .instr (.ldByte (fieldX w) (fieldKK w))
  | 0x7#4 => .instr (.addByte (fieldX w) (fieldKK w))
  | 0x8#4 => decode8 w
  | 0x9#4 => decode59 strict w (.sneReg (fieldX w) (fieldY w))
  | 0xA#4 => .instr (.ldI (fieldNNN w))
  | 0xB#4 => .instr (.jpV0 (fieldNNN w))
  | 0xC#4 => .instr (.rnd (fieldX w) (fieldKK w))
  | 0xD#4 => .instr (.drw (fieldX w) (fieldY w) (fieldN w))
  | 0xE#4 => decodeE w
  | _ => decodeF w

/-- The opcode of two bytes in memory: the byte at PC is the high byte (20_memory.md R69). -/
def wordOfBytes (hi lo : Byte) : Word := hi ++ lo

/-- The two bytes of a word, in memory order. -/
def bytesOfWord (w : Word) : Byte × Byte := (w.extractLsb' 8 8, w.extractLsb' 0 8)

/-- Decoding bytes: an instruction is always the first two (R90). `none`: there are fewer than two. -/
def decodeBytes (strict : Bool) : List Byte → Option Decoded
  | hi :: lo :: _ => some (decode strict (wordOfBytes hi lo))
  | _ => none

/-- The instruction of an opcode-table row's bits, under the default STRICT_5_9 (the table's masks are those of
the default). The table's rows are one 16-bit word, so bit 0 of `w` is bit 0 of the word; bits from nbits up are
0 (log entry 17). -/
def decodeTableWord (nbits w : Nat) : Option Instr :=
  let b := bytesOfWord (BitVec.ofNat 16 (w % 2 ^ nbits))
  match decodeBytes Config.default.strict59 [b.1, b.2] with
  | some (.instr i) => some i
  | _ => none

/-! ## Encoding -/

/-- The four bits of a register index, height or key. -/
def nib (x : Fin 16) : BitVec 4 := BitVec.ofFin x

/-- The word of an instruction, written from the layouts of R92 and the patterns of R98. A SE or SNE of two
registers is encoded with n = 0 (log entry 13). -/
def encode : Instr → Word
  | .sys nnn => 0x0#4 ++ nnn
  | .cls => 0x00E0#16
  | .ret => 0x00EE#16
  | .jp nnn => 0x1#4 ++ nnn
  | .call nnn => 0x2#4 ++ nnn
  | .seByte x kk => 0x3#4 ++ nib x ++ kk
  | .sneByte x kk => 0x4#4 ++ nib x ++ kk
  | .seReg x y => 0x5#4 ++ nib x ++ nib y ++ 0x0#4
  | .ldByte x kk => 0x6#4 ++ nib x ++ kk
  | .addByte x kk => 0x7#4 ++ nib x ++ kk
  | .ldReg x y => 0x8#4 ++ nib x ++ nib y ++ 0x0#4
  | .orReg x y => 0x8#4 ++ nib x ++ nib y ++ 0x1#4
  | .andReg x y => 0x8#4 ++ nib x ++ nib y ++ 0x2#4
  | .xorReg x y => 0x8#4 ++ nib x ++ nib y ++ 0x3#4
  | .addReg x y => 0x8#4 ++ nib x ++ nib y ++ 0x4#4
  | .subReg x y => 0x8#4 ++ nib x ++ nib y ++ 0x5#4
  | .shr x y => 0x8#4 ++ nib x ++ nib y ++ 0x6#4
  | .subnReg x y => 0x8#4 ++ nib x ++ nib y ++ 0x7#4
  | .shl x y => 0x8#4 ++ nib x ++ nib y ++ 0xE#4
  | .sneReg x y => 0x9#4 ++ nib x ++ nib y ++ 0x0#4
  | .ldI nnn => 0xA#4 ++ nnn
  | .jpV0 nnn => 0xB#4 ++ nnn
  | .rnd x kk => 0xC#4 ++ nib x ++ kk
  | .drw x y n => 0xD#4 ++ nib x ++ nib y ++ nib n
  | .skp x => 0xE#4 ++ nib x ++ 0x9E#8
  | .sknp x => 0xE#4 ++ nib x ++ 0xA1#8
  | .ldVxDT x => 0xF#4 ++ nib x ++ 0x07#8
  | .ldVxK x => 0xF#4 ++ nib x ++ 0x0A#8
  | .ldDTVx x => 0xF#4 ++ nib x ++ 0x15#8
  | .ldSTVx x => 0xF#4 ++ nib x ++ 0x18#8
  | .addI x => 0xF#4 ++ nib x ++ 0x1E#8
  | .ldF x => 0xF#4 ++ nib x ++ 0x29#8
  | .ldB x => 0xF#4 ++ nib x ++ 0x33#8
  | .storeRegs x => 0xF#4 ++ nib x ++ 0x55#8
  | .loadRegs x => 0xF#4 ++ nib x ++ 0x65#8

/-- The mask and the pattern of the instruction's row of the opcode map (R98; the masks of opcode_table.json,
which hold under the default STRICT_5_9 = false). -/
structure Row where
  mask    : Word
  pattern : Word
  deriving DecidableEq, Repr

def Instr.row : Instr → Row
  | .sys _ => ⟨0xF000, 0x0000⟩
  | .cls => ⟨0xFFFF, 0x00E0⟩
  | .ret => ⟨0xFFFF, 0x00EE⟩
  | .jp _ => ⟨0xF000, 0x1000⟩
  | .call _ => ⟨0xF000, 0x2000⟩
  | .seByte _ _ => ⟨0xF000, 0x3000⟩
  | .sneByte _ _ => ⟨0xF000, 0x4000⟩
  | .seReg _ _ => ⟨0xF000, 0x5000⟩
  | .ldByte _ _ => ⟨0xF000, 0x6000⟩
  | .addByte _ _ => ⟨0xF000, 0x7000⟩
  | .ldReg _ _ => ⟨0xF00F, 0x8000⟩
  | .orReg _ _ => ⟨0xF00F, 0x8001⟩
  | .andReg _ _ => ⟨0xF00F, 0x8002⟩
  | .xorReg _ _ => ⟨0xF00F, 0x8003⟩
  | .addReg _ _ => ⟨0xF00F, 0x8004⟩
  | .subReg _ _ => ⟨0xF00F, 0x8005⟩
  | .shr _ _ => ⟨0xF00F, 0x8006⟩
  | .subnReg _ _ => ⟨0xF00F, 0x8007⟩
  | .shl _ _ => ⟨0xF00F, 0x800E⟩
  | .sneReg _ _ => ⟨0xF000, 0x9000⟩
  | .ldI _ => ⟨0xF000, 0xA000⟩
  | .jpV0 _ => ⟨0xF000, 0xB000⟩
  | .rnd _ _ => ⟨0xF000, 0xC000⟩
  | .drw _ _ _ => ⟨0xF000, 0xD000⟩
  | .skp _ => ⟨0xF0FF, 0xE09E⟩
  | .sknp _ => ⟨0xF0FF, 0xE0A1⟩
  | .ldVxDT _ => ⟨0xF0FF, 0xF007⟩
  | .ldVxK _ => ⟨0xF0FF, 0xF00A⟩
  | .ldDTVx _ => ⟨0xF0FF, 0xF015⟩
  | .ldSTVx _ => ⟨0xF0FF, 0xF018⟩
  | .addI _ => ⟨0xF0FF, 0xF01E⟩
  | .ldF _ => ⟨0xF0FF, 0xF029⟩
  | .ldB _ => ⟨0xF0FF, 0xF033⟩
  | .storeRegs _ => ⟨0xF0FF, 0xF055⟩
  | .loadRegs _ => ⟨0xF0FF, 0xF065⟩

end Sys2Proof
end

