-- ==== Sys2Proof/Machine/State.lean ====
section
/-! DEFINITION. The state of the engine (10_state.md R47), the fault kinds (60_exceptions.md R270) and the state
after reset (70_reset_and_hazards.md R310). Plain data throughout. -/

namespace Sys2Proof.Machine

/-- The fault kinds of 60_exceptions.md R270, each with the info it records. A fault is terminal for the machine.
Its entry is described by R272, so a fault is a NEXT state whose status is `faulted f` (`raise` of
Machine/Ops.lean); no step of this model answers `Host.Outcome.fault` (log entry 5, safe). -/
inductive Fault where
  /-- Code 1. Raised by the fetch (the failing address), by DRW, LD B, LD [I], LD Vx,[I] (the base address I),
  and by an oversize load_rom (0x1000). Safe: it is the spec's own fault. -/
  | outOfBounds (addr : Word)
  /-- Code 2. Raised by CALL with 16 entries on the stack (R33, R129). Safe: the spec's own fault. -/
  | stackOverflow
  /-- Code 3. Raised by RET with an empty stack (R34, R127). Safe: the spec's own fault. -/
  | stackUnderflow
  /-- Code 4. Raised by decode, with the word (R104). Safe: the spec's own fault. -/
  | illegalOpcode (w : Word)
  /-- Code 5. Raised by the sprite constructor for a height above 16, by no instruction (R42). Safe. -/
  | spriteTooTall
  /-- Code 6. Raised by SYS, DRW, SKP, SKNP, LD F where the source gives no meaning, under the parameter values
  `fault` (R125, R193, R196, R242), with the word. Safe: the spec's own fault. -/
  | undefined (w : Word)
  deriving DecidableEq, Repr

/-- Why the model gives an instruction no meaning. -/
inductive Refusal where
  /-- An arm of `exec` without a meaning, by its mnemonic. Raised by no arm: all 35 have their meaning. Safe. -/
  | notModelled (mnemonic : String)
  deriving DecidableEq, Repr

/-- The execution status (R45). -/
inductive Status where
  /-- Fetches and executes on each step. -/
  | running
  /-- Entered by LD Vx, K; left only by a key-down edge (R201, R202). -/
  | waiting (x : RegIdx)
  /-- Terminal; left only by a host reset (R273). -/
  | faulted (f : Fault)
  deriving DecidableEq, Repr

/-- Memory: the bytes that differ from the reset contents, by address, in the canonical form of `Memory.wf`
(Machine/Ops.lean). An address that is not listed reads as its reset contents (R41; log entry 7). -/
abbrev Memory := List Host.Cell

/-- The framebuffer: 32 rows of 64 pixels, row 0 first; bit c of a row is the pixel of column c
(R39; log entry 12). -/
abbrev FrameBuf := Vector (BitVec 64) 32

structure State where
  /-- The parameters of R8, fixed for the machine: no step and no transaction changes them (log entry 1). -/
  cfg    : Config
  /-- V0..VF (R20); V[15] is VF, data register and flag (R21). -/
  v      : Vector Byte 16
  /-- I (R29). -/
  i      : Word
  /-- PC (R25). -/
  pc     : Word
  /-- The return-address stack, bottom first, top last (R32). -/
  stack  : List Word
  /-- DT (R36). -/
  dt     : Byte
  /-- ST (R37). -/
  st     : Byte
  /-- Memory (R41). -/
  mem    : Memory
  /-- The framebuffer (R39). -/
  fb     : FrameBuf
  /-- The key snapshot, true when the key is down (R43). -/
  key    : Vector Bool 16
  /-- The execution status (R45). -/
  status : Status
  /-- The model's own field: how many free bytes have been drawn (log entry 3). -/
  draws  : Nat
  deriving DecidableEq, Repr

/-- The values the environment chooses at reset under RESET_REGS = arbitrary (R22, R30, R36, R37, R311). -/
structure ResetDraw where
  v  : Vector Byte 16
  i  : Word
  dt : Byte
  st : Byte
  deriving DecidableEq, Repr

/-- The register values at reset: all zero (RESET_REGS = zero; D2, log entry 2). -/
def ResetDraw.zero : ResetDraw := ⟨Vector.replicate 16 0, 0, 0, 0⟩

/-- The register values at reset of a machine with parameters `c` (R311). -/
def ResetDraw.chosen (c : Config) (d : ResetDraw) : ResetDraw :=
  match c.resetRegs with
  | .zero => ResetDraw.zero
  | .arbitrary => d

/-- The state after reset (R310) of a machine with parameters `c`, where `d` holds the values the environment
chooses and `n` counts the free bytes drawn so far. -/
def State.resetWith (c : Config) (d : ResetDraw) (n : Nat) : State where
  cfg    := c
  v      := (d.chosen c).v
  i      := (d.chosen c).i
  pc     := 0x200
  stack  := []
  dt     := (d.chosen c).dt
  st     := (d.chosen c).st
  mem    := []
  fb     := Vector.replicate 32 0
  key    := Vector.replicate 16 false
  status := .running
  draws  := n

/-- The machine right after reset, with the default parameters of R8 (R310). -/
def State.reset : State := State.resetWith Config.default ResetDraw.zero 0

end Sys2Proof.Machine
end

