-- ==== Sys2Proof/Machine/Ops.lean ====
section
/-! DEFINITION. The named operations over registers, memory and the stack, the raising of a fault, and the fetch
of an instruction. A primitive that can fail answers `Except Fault`; `State.commit` turns that answer into the
step's outcome, so a failing check leaves nothing written (40_flow.md R121). -/

namespace Sys2Proof.Machine

/-- The outcome of a meaning and of a step. -/
abbrev Result := Host.Outcome State Fault Refusal

/-- The numeric codes of R270 (the spec's own labels, D35). -/
def Fault.code : Fault → Nat
  | .outOfBounds _ => 1
  | .stackOverflow => 2
  | .stackUnderflow => 3
  | .illegalOpcode _ => 4
  | .spriteTooTall => 5
  | .undefined _ => 6

/-! ## Memory (20_memory.md) -/

/-- The reset contents of an address: a byte of FONT_DATA at FONT_BASE .. FONT_BASE + 79, else 0 (R40, R41). -/
def resetByte (c : Config) (a : Nat) : Byte :=
  if c.fontBase.toNat ≤ a ∧ a < c.fontBase.toNat + 80 then c.fontData.getD (a - c.fontBase.toNat) 0 else 0

/-- The byte at an address; `d` gives what an unlisted address reads as. -/
def Memory.read (d : Nat → Byte) : Memory → Nat → Byte
  | [], a => d a
  | (b, x) :: m, a => if b = a then x else Memory.read d m a

/-- Replaces the byte at an address and keeps the canonical form: an entry equal to what the unlisted address
reads as is not kept. -/
def Memory.write (d : Nat → Byte) : Memory → Nat → Byte → Memory
  | [], a, v => if v = d a then [] else [(a, v)]
  | (b, x) :: m, a, v =>
    if a < b then (if v = d a then (b, x) :: m else (a, v) :: (b, x) :: m)
    else if a = b then (if v = d a then m else (a, v) :: m)
    else (b, x) :: Memory.write d m a v

/-- Writes bytes at ascending addresses from `a` on (R65, R69). -/
def Memory.writeBytes (d : Nat → Byte) : Memory → Nat → List Byte → Memory
  | m, _, [] => m
  | m, a, b :: bs => Memory.writeBytes d (Memory.write d m a b) (a + 1) bs

/-- The canonical form from address `lo` on: addresses strictly rising and below 4096, no entry equal to what its
address reads as when it is not listed. -/
def Memory.wfFrom (d : Nat → Byte) : Nat → Memory → Bool
  | _, [] => true
  | lo, (a, x) :: m => decide (lo ≤ a) && decide (a < 4096) && (x != d a) && Memory.wfFrom d (a + 1) m

/-- The canonical form of memory. -/
def Memory.wf (d : Nat → Byte) (m : Memory) : Bool := Memory.wfFrom d 0 m

namespace State

/-- Memory is in its canonical form. -/
def memWf (s : State) : Bool := Memory.wf (resetByte s.cfg) s.mem

/-- `mem[a]`: the byte of memory at address `a`, with no bound check. -/
def byteAt (s : State) (a : Nat) : Byte := Memory.read (resetByte s.cfg) s.mem a

/-- `mem[a] <- b` and on, ascending, with no bound check. -/
def putBytes (s : State) (a : Nat) (bs : List Byte) : State :=
  { s with mem := Memory.writeBytes (resetByte s.cfg) s.mem a bs }

/-- `read` (R61, R64) of an exact address: OutOfBounds with the address above 4095. -/
def readAt (s : State) (a : Nat) : Except Fault Byte :=
  if a > 4095 then .error (.outOfBounds (BitVec.ofNat 16 a)) else .ok (s.byteAt a)

/-- `read(addr)` (R61). -/
def read (s : State) (addr : Word) : Except Fault Byte := s.readAt addr.toNat

/-- `write(addr, byte)` (R62). -/
def write (s : State) (addr : Word) (b : Byte) : Except Fault State :=
  if addr.toNat > 4095 then .error (.outOfBounds addr) else .ok (s.putBytes addr.toNat [b])

/-- The n bytes from address `a` on, ascending, with no bound check. -/
def bytesFrom (s : State) (a n : Nat) : List Byte := (List.range n).map fun k => s.byteAt (a + k)

/-- `read_seq(addr, n)`: the bound is addr + 16 or addr + n, by READ_SEQ_BOUND (R63; for n outside 1..16 see log
entry 19). -/
def readSeq (s : State) (addr : Word) (n : Nat) : Except Fault (List Byte) :=
  let limit := match s.cfg.readSeqBound with
    | .legacy16 => 16
    | .exact => n
  if addr.toNat + limit > 4096 then .error (.outOfBounds addr) else .ok (s.bytesFrom addr.toNat n)

/-- `write_seq(addr, bytes)`, the same as `MemWrite` (R62, R65): the last address is checked before any byte is
written, so a failing store writes nothing. -/
def writeSeq (s : State) (addr : Word) (bs : List Byte) : Except Fault State :=
  if addr.toNat + bs.length > 4096 then .error (.outOfBounds addr) else .ok (s.putBytes addr.toNat bs)

end State

/-- The hundreds, tens and ones digits of a byte (R66; 90_conflicts.md C2). -/
def bcdDigits (v : Byte) : List Byte :=
  [BitVec.ofNat 8 (v.toNat / 100), BitVec.ofNat 8 (v.toNat / 10 % 10), BitVec.ofNat 8 (v.toNat % 10)]

namespace State

/-- `write_bcd(addr, value)` (R66). -/
def writeBcd (s : State) (addr : Word) (v : Byte) : Except Fault State := s.writeSeq addr (bcdDigits v)

/-! ## Registers (10_state.md R20 to R37) -/

/-- `V[x]`. -/
def getV (s : State) (x : RegIdx) : Byte := s.v[x]

/-- `V[x] <- b`. -/
def setV (s : State) (x : RegIdx) (b : Byte) : State := { s with v := s.v.set x b }

/-- `I <- w`. -/
def setI (s : State) (w : Word) : State := { s with i := w }

/-- `pc <- target`. -/
def setPc (s : State) (w : Word) : State := { s with pc := w }

/-- `DT <- b`. -/
def setDT (s : State) (b : Byte) : State := { s with dt := b }

/-- `ST <- b`. -/
def setST (s : State) (b : Byte) : State := { s with st := b }

/-- `stack <- l`. -/
def setStack (s : State) (l : List Word) : State := { s with stack := l }

/-- `fb <- f`. -/
def setFb (s : State) (f : FrameBuf) : State := { s with fb := f }

/-- `status <- x`. -/
def setStatus (s : State) (x : Status) : State := { s with status := x }

/-- Registers V[0].. take the bytes of the list, in order; a register past its end keeps its value (R245). -/
def setRegs (s : State) (bs : List Byte) : State :=
  { s with v := Vector.ofFn fun k : Fin 16 => bs.getD k.val (s.getV k) }

/-- `[V[0], ..., V[x]]` (R244). -/
def regsUpTo (s : State) (x : RegIdx) : List Byte := s.v.toList.take (x.val + 1)

/-- pc +16 2: the next instruction in sequence (40_flow.md R120). -/
def advance (s : State) : State := s.setPc (s.pc + 2)

/-- pc +16 4 when the condition holds, else pc +16 2 (R123). -/
def skipIf (s : State) (c : Bool) : State := s.setPc (if c then s.pc + 4 else s.pc + 2)

/-- The next free byte of the environment; the counter moves on (R190, R191; log entry 3). -/
def nextDraw (s : State) : State := { s with draws := s.draws + 1 }

/-! ## The stack (10_state.md R32 to R35) -/

/-- `push(v)` (R33). For a stack longer than 16, which no run reaches, see log entry 10. -/
def push (s : State) (w : Word) : Except Fault State :=
  if s.stack.length < 16 then .ok (s.setStack (s.stack ++ [w])) else .error .stackOverflow

/-- `pop()` (R34): the top entry and the state without it. -/
def pop (s : State) : Except Fault (Word × State) :=
  match s.stack.getLast? with
  | none => .error .stackUnderflow
  | some w => .ok (w, s.setStack s.stack.dropLast)

/-- `len()` (R35). -/
def stackLen (s : State) : Nat := s.stack.length

end State

/-! ## Faults (60_exceptions.md R272) -/

/-- `raise E(info)`: nothing of the step is written, `status <- Faulted(E, info)`, pc stays at the faulting
instruction. Nothing is saved and there is no handler, so there is no return from a fault either (R273): only a
host reset leaves it (Machine/Transactions.lean). -/
def raise (f : Fault) (s : State) : Result := .next (s.setStatus (.faulted f))

/-- The end of a step that started in `s`: the new state, or the fault of the check that failed (R121). -/
def State.commit (s : State) : Except Fault State → Result
  | .ok t => .next t
  | .error f => raise f s

/-! ## Fetch and decode (30_encoding.md R95) -/

namespace State

/-- The bytes at pc and pc + 1, the first the high byte; the check of pc comes first (R69, R95, R274). -/
def fetchWord (s : State) : Except Fault Word :=
  match s.readAt s.pc.toNat with
  | .error f => .error f
  | .ok hi =>
    match s.readAt (s.pc.toNat + 1) with
    | .error f => .error f
    | .ok lo => .ok (wordOfBytes hi lo)

/-- Fetch and decode: the instruction at pc, or the fault that ends the step before dispatch (R95, R104). -/
def fetchInstr (s : State) : Except Fault Instr :=
  match s.fetchWord with
  | .error f => .error f
  | .ok w =>
    match decode s.cfg.strict59 w with
    | .instr i => .ok i
    | .illegal w => .error (.illegalOpcode w)

/-- A word placed at pc, in memory order; a byte past address 4095 has no place (log entries 8, 20). -/
def placeWord (s : State) (w : Word) : State :=
  let b := bytesOfWord w
  if s.pc.toNat + 1 ≤ 4095 then s.putBytes s.pc.toNat [b.1, b.2] else s

end State

end Sys2Proof.Machine
end

