-- ==== Sys2Proof/Machine/Flags.lean ====
section
/-! DEFINITION. The flag register VF: every flag value the spec gives, and the writing of a result and its flag
(10_state.md R23, R24; 40_flow.md R122; 41_alu.md R161, R162). -/

namespace Sys2Proof.Machine

/-- VF is V[15] (10_state.md R21). -/
def vf : RegIdx := 15

/-- 1 when the condition holds, else 0 (00_scope.md R11). -/
def b2u (c : Bool) : Byte := if c then 1 else 0

/-- The carry of a + b: the exact sum exceeds 255 (41_alu.md R156). -/
def carryOut (a b : Byte) : Bool := decide (a.toNat + b.toNat > 255)

/-- No borrow in a - b: a ≥ b (41_alu.md R157, R159). -/
def noBorrow (a b : Byte) : Bool := decide (a.toNat ≥ b.toNat)

/-- The bit a right shift shifts out: bit 0 (41_alu.md R158). -/
def shrOut (a : Byte) : Byte := a &&& 1

/-- The bit a left shift shifts out: bit 7 (41_alu.md R160). -/
def shlOut (a : Byte) : Byte := a >>> 7

namespace State

/-- `V[15] <- b`: the whole byte, whatever it held (10_state.md R24). -/
def setVF (s : State) (b : Byte) : State := s.setV vf b

/-- Vx first and VF last, so that for x = 15 the flag is what VF holds afterwards (40_flow.md R122). -/
def setResult (s : State) (x : RegIdx) (r flag : Byte) : State := (s.setV x r).setVF flag

/-- The result of OR, AND, XOR: VF <- 0 after it, only under LOGIC_VF_RESET = true (41_alu.md R153 to R155). -/
def setLogic (s : State) (x : RegIdx) (r : Byte) : State :=
  if s.cfg.logicVfReset then (s.setV x r).setVF 0 else s.setV x r

end State

end Sys2Proof.Machine
end

