-- ==== Sys2Proof/Machine/Operands.lean ====
section
/-! DEFINITION. The operand forms: zero-extended immediates (30_encoding.md R93) and the operands that a parameter
of 00_scope.md R8 selects. -/

namespace Sys2Proof.Machine

/-- zext_16(nnn) (30_encoding.md R93). -/
def addrOf (nnn : Addr12) : Word := nnn.setWidth 16

/-- zext_16 of a byte (00_scope.md R11). -/
def wordOf (b : Byte) : Word := b.setWidth 16

/-- A register value used as a key or as a hex digit: itself up to 15, and above by the parameter: Undefined with
the opcode, or the low nibble (42_rand_draw_keys.md R196, 44_index_memory.md R242). -/
def digitOf (p : WidePolicy) (op16 : Word) (b : Byte) : Except Fault (Fin 16) :=
  if b.toNat ≤ 15 then .ok (b.extractLsb' 0 4).toFin
  else match p with
    | .fault => .error (.undefined op16)
    | .lowNibble => .ok (b.extractLsb' 0 4).toFin

namespace State

/-- The key that V[x] names, for the instruction whose word is `op16` (42_rand_draw_keys.md R196). -/
def keyIndex (s : State) (op16 : Word) (x : RegIdx) : Except Fault KeyIdx :=
  digitOf s.cfg.keyIndexWide op16 (s.getV x)

/-- key[k] of the snapshot (10_state.md R44). -/
def keyDownAt (s : State) (k : KeyIdx) : Bool := s.key[k]

/-- The digit that V[x] names (44_index_memory.md R242). -/
def fontDigit (s : State) (op16 : Word) (x : RegIdx) : Except Fault (Fin 16) :=
  digitOf s.cfg.fontDigitWide op16 (s.getV x)

/-- The address of a digit's glyph: FONT_BASE +16 5 * d (44_index_memory.md R242). -/
def glyphAddr (s : State) (d : Fin 16) : Word := s.cfg.fontBase + BitVec.ofNat 16 (5 * d.val)

/-- The source of a shift: V[x], or V[y] under SHIFT_SOURCE = vy (41_alu.md R158, R160). -/
def shiftSrc (s : State) (x y : RegIdx) : Byte :=
  match s.cfg.shiftSource with
  | .vx => s.getV x
  | .vy => s.getV y

/-- The register JP V0 adds: V0, or V[nnn[11:8]] under JUMP_OFFSET_REG = vx (40_flow.md R134). -/
def jumpReg (s : State) (nnn : Addr12) : RegIdx :=
  match s.cfg.jumpOffsetReg with
  | .v0 => 0
  | .vx => (nnn.extractLsb' 8 4).toFin

/-- I after a register block move, by LOADSTORE_I (44_index_memory.md R244, R245). -/
def indexAfterBlock (s : State) (x : RegIdx) : Word :=
  match s.cfg.loadStoreI with
  | .unchanged => s.i
  | .plusXPlus1 => s.i + BitVec.ofNat 16 (x.val + 1)
  | .plusX => s.i + BitVec.ofNat 16 x.val

end State

end Sys2Proof.Machine
end

