-- ==== Sys2Proof/Machine/Alu.lean ====
section
/-! DEFINITION. The meanings of 41_alu.md: loads, adds, subtractions, bitwise operations and shifts. Byte
arithmetic is modulo 256 (R161); operands are read from the state at the start of the step (40_flow.md R122). -/

namespace Sys2Proof.Machine

/-- `LD Vx, byte` (R150). -/
def execLdByte (x : RegIdx) (kk : Byte) (s : State) : Result := .next (s.setV x kk).advance

/-- `ADD Vx, byte` (R151): no flag. -/
def execAddByte (x : RegIdx) (kk : Byte) (s : State) : Result := .next (s.setV x (s.getV x + kk)).advance

/-- `LD Vx, Vy` (R152). -/
def execLdReg (x y : RegIdx) (s : State) : Result := .next (s.setV x (s.getV y)).advance

/-- `OR Vx, Vy` (R153). -/
def execOrReg (x y : RegIdx) (s : State) : Result := .next (s.setLogic x (s.getV x ||| s.getV y)).advance

/-- `AND Vx, Vy` (R154). -/
def execAndReg (x y : RegIdx) (s : State) : Result := .next (s.setLogic x (s.getV x &&& s.getV y)).advance

/-- `XOR Vx, Vy` (R155). -/
def execXorReg (x y : RegIdx) (s : State) : Result := .next (s.setLogic x (s.getV x ^^^ s.getV y)).advance

/-- `ADD Vx, Vy` (R156): VF is the carry. -/
def execAddReg (x y : RegIdx) (s : State) : Result :=
  .next (s.setResult x (s.getV x + s.getV y) (b2u (carryOut (s.getV x) (s.getV y)))).advance

/-- `SUB Vx, Vy` (R157): Vx - Vy, VF = 1 when no borrow. -/
def execSubReg (x y : RegIdx) (s : State) : Result :=
  .next (s.setResult x (s.getV x - s.getV y) (b2u (noBorrow (s.getV x) (s.getV y)))).advance

/-- `SHR Vx {, Vy}` (R158): VF is the bit shifted out. -/
def execShr (x y : RegIdx) (s : State) : Result :=
  .next (s.setResult x (s.shiftSrc x y >>> 1) (shrOut (s.shiftSrc x y))).advance

/-- `SUBN Vx, Vy` (R159): Vy - Vx, VF = 1 when no borrow. -/
def execSubnReg (x y : RegIdx) (s : State) : Result :=
  .next (s.setResult x (s.getV y - s.getV x) (b2u (noBorrow (s.getV y) (s.getV x)))).advance

/-- `SHL Vx {, Vy}` (R160): VF is the bit shifted out. -/
def execShl (x y : RegIdx) (s : State) : Result :=
  .next (s.setResult x (s.shiftSrc x y <<< 1) (shlOut (s.shiftSrc x y))).advance

end Sys2Proof.Machine
end

