-- ==== Sys2Proof/Machine/Display.lean ====
section
/-! DEFINITION. The display and the sprite (10_state.md R39, R42; 42_rand_draw_keys.md R192;
60_exceptions.md R291). -/

namespace Sys2Proof.Machine

/-! ## Sprite (10_state.md R42) -/

/-- A sprite: its rows, top to bottom, at most 16 of them. A transient value, no part of the state. A sprite of no rows
is allowed (DESIGN CHOICE, log entry 25). -/
structure Sprite where
  rows     : List Byte
  height_le : rows.length ≤ 16
  deriving DecidableEq, Repr

/-- `new(rows, height)`: fails with SpriteTooTall if height > 16 (R42; rows and height that differ: log entry 11).
Height 0 builds an empty sprite: R42 gives 1 to 16 rows and names no failure for 0 (DESIGN CHOICE, log entry 25). -/
def Sprite.new (rows : List Byte) (height : Nat) : Except Fault Sprite :=
  if h : height ≤ 16 then
    .ok ⟨rows.take height, Nat.le_trans (Nat.le_trans (List.length_take_le _ _) (Nat.le_refl _)) h⟩
  else .error .spriteTooTall

/-- `dump()`: the rows, in top-to-bottom order. -/
def Sprite.dump (p : Sprite) : List Byte := p.rows

/-- `load(rows)`: replaces the contents wholesale (log entry 11), also by no rows (DESIGN CHOICE, log entry 25). -/
def Sprite.load (_ : Sprite) (rows : List Byte) : Except Fault Sprite := Sprite.new rows rows.length

/-! ## Framebuffer -/

namespace FrameBuf

/-- `fb[c][r]` (R39). -/
def pixel (f : FrameBuf) (c : Fin 64) (r : Fin 32) : Bool := f[r].getLsbD c.val

/-- `fb[c][r] <- fb[c][r] ^ 1`. -/
def toggle (f : FrameBuf) (c : Fin 64) (r : Fin 32) : FrameBuf := f.set r (f[r] ^^^ BitVec.twoPow 64 c.val)

/-- Every pixel 0 (40_flow.md R126). -/
def blank : FrameBuf := Vector.replicate 32 0

/-- The column of a sprite's column `col` drawn at `cx`: the coordinates wrap (42_rand_draw_keys.md R192). -/
def wrapCol (cx : Byte) (col : Nat) : Fin 64 := Fin.ofNat 64 (cx.toNat + col)

/-- The row of a sprite's row `k` drawn at `cy`. -/
def wrapRow (cy : Byte) (k : Nat) : Fin 32 := Fin.ofNat 32 (cy.toNat + k)

/-- One bit of a row: column `col` of the byte is bit 7 - col; a set bit toggles its pixel and collides when the
pixel was 1 (42_rand_draw_keys.md R192, R193). -/
def drawBit (cx : Byte) (r : Fin 32) (b : Byte) (acc : FrameBuf × Bool) (col : Nat) : FrameBuf × Bool :=
  if b.getLsbD (7 - col) then
    (acc.1.toggle (wrapCol cx col) r, acc.2 || acc.1.pixel (wrapCol cx col) r)
  else acc

/-- One row: its eight columns from left to right. -/
def drawRow (cx : Byte) (r : Fin 32) (b : Byte) (acc : FrameBuf × Bool) : FrameBuf × Bool :=
  (List.range 8).foldl (drawBit cx r b) acc

/-- The rows from row `k` of the sprite on. -/
def drawRows (cx cy : Byte) : Nat → List Byte → FrameBuf × Bool → FrameBuf × Bool
  | _, [], acc => acc
  | k, b :: bs, acc => drawRows cx cy (k + 1) bs (drawRow cx (wrapRow cy k) b acc)

/-- `draw(x, y, sprite) -> collision` (42_rand_draw_keys.md R192): the new framebuffer and whether any pixel went
from 1 to 0. -/
def draw (f : FrameBuf) (cx cy : Byte) (p : Sprite) : FrameBuf × Bool := drawRows cx cy 0 p.dump (f, false)

end FrameBuf

namespace State

/-- Draws the sprite at (cx, cy) and writes the collision flag (42_rand_draw_keys.md R193). -/
def drawSprite (s : State) (cx cy : Byte) (p : Sprite) : State :=
  let d := FrameBuf.draw s.fb cx cy p
  (s.setFb d.1).setVF (b2u d.2)

end State

end Sys2Proof.Machine
end

