-- ==== Sys2Proof/Machine/ControlFlow.lean ====
section
/-! DEFINITION. The meanings of 40_flow.md: SYS, CLS, RET, JP, CALL, the skips on registers, JP V0. -/

namespace Sys2Proof.Machine

/-- `SYS addr` (R125): Undefined with the opcode, or the next instruction under SYS_POLICY = nop. -/
def execSys (nnn : Addr12) (s : State) : Result :=
  match s.cfg.sysPolicy with
  | .fault => raise (.undefined (encode (.sys nnn))) s
  | .nop => .next s.advance

/-- `CLS` (R126). -/
def execCls (s : State) : Result := .next (s.setFb FrameBuf.blank).advance

/-- `RET` (R127): pc is the popped value itself, not advanced again. -/
def execRet (s : State) : Result := s.commit (s.pop.map fun (w, t) => t.setPc w)

/-- `JP addr` (R128). -/
def execJp (nnn : Addr12) (s : State) : Result := .next (s.setPc (addrOf nnn))

/-- `CALL addr` (R129): pushes pc + 2, the address of the next instruction. -/
def execCall (nnn : Addr12) (s : State) : Result :=
  s.commit ((s.push (s.pc + 2)).map fun t => t.setPc (addrOf nnn))

/-- `SE Vx, byte` (R130). -/
def execSeByte (x : RegIdx) (kk : Byte) (s : State) : Result := .next (s.skipIf (s.getV x == kk))

/-- `SNE Vx, byte` (R131). -/
def execSneByte (x : RegIdx) (kk : Byte) (s : State) : Result := .next (s.skipIf (s.getV x != kk))

/-- `SE Vx, Vy` (R132). -/
def execSeReg (x y : RegIdx) (s : State) : Result := .next (s.skipIf (s.getV x == s.getV y))

/-- `SNE Vx, Vy` (R133). -/
def execSneReg (x y : RegIdx) (s : State) : Result := .next (s.skipIf (s.getV x != s.getV y))

/-- `JP V0, addr` (R134): the sum is not reduced modulo 4096. -/
def execJpV0 (nnn : Addr12) (s : State) : Result :=
  .next (s.setPc (addrOf nnn + wordOf (s.getV (s.jumpReg nnn))))

end Sys2Proof.Machine
end

