-- ==== Sys2Proof/Machine/IndexMemory.lean ====
section
/-! DEFINITION. The meanings of 44_index_memory.md: LD I, ADD I, LD F, LD B, LD [I], LD Vx, [I]. -/

namespace Sys2Proof.Machine

/-- `LD I, addr` (R240). -/
def execLdI (nnn : Addr12) (s : State) : Result := .next (s.setI (addrOf nnn)).advance

/-- `ADD I, Vx` (R241): modulo 2^16, no flag. -/
def execAddI (x : RegIdx) (s : State) : Result := .next (s.setI (s.i + wordOf (s.getV x))).advance

/-- `LD F, Vx` (R242): reads no memory. -/
def execLdF (x : RegIdx) (s : State) : Result :=
  s.commit ((s.fontDigit (encode (.ldF x)) x).map fun d => (s.setI (s.glyphAddr d)).advance)

/-- `LD B, Vx` (R243). -/
def execLdB (x : RegIdx) (s : State) : Result :=
  s.commit ((s.writeBcd s.i (s.getV x)).map State.advance)

/-- `LD [I], Vx` (R244). -/
def execStoreRegs (x : RegIdx) (s : State) : Result :=
  s.commit ((s.writeSeq s.i (s.regsUpTo x)).map fun t => (t.setI (s.indexAfterBlock x)).advance)

/-- `LD Vx, [I]` (R245). -/
def execLoadRegs (x : RegIdx) (s : State) : Result :=
  s.commit ((s.readSeq s.i (x.val + 1)).map fun b => ((s.setRegs b).setI (s.indexAfterBlock x)).advance)

end Sys2Proof.Machine
end

