-- ==== Sys2Proof/Machine/RandomDrawKeys.lean ====
section
/-! DEFINITION. The meanings of 42_rand_draw_keys.md: RND, DRW, SKP, SKNP, LD Vx, K. -/

namespace Sys2Proof.Machine

/-- RND with the byte `r` of the environment (R190). -/
def State.randomInto (s : State) (x : RegIdx) (r kk : Byte) : State := (s.setV x (r &&& kk)).advance

/-- `RND Vx, byte` (R190, R191): the byte is the next free byte. -/
def execRnd (x : RegIdx) (kk : Byte) (s : State) : Result :=
  .next (s.nextDraw.randomInto x (Config.freeByte s.draws) kk)

/-- `DRW Vx, Vy, nibble` (R193): n = 0 first, then the bound of the read, then the draw. -/
def execDrw (x y : RegIdx) (n : Fin 16) (s : State) : Result :=
  if n = 0 then
    match s.cfg.drawZeroHeight with
    | .fault => raise (.undefined (encode (.drw x y n))) s
    | .empty => .next (s.setVF 0).advance
  else
    match s.readSeq s.i n.val with
    | .error f => raise f s
    | .ok rows => s.commit ((Sprite.new rows n.val).map fun p => (s.drawSprite (s.getV x) (s.getV y) p).advance)

/-- `SKP Vx` (R198). -/
def execSkp (x : RegIdx) (s : State) : Result :=
  s.commit ((s.keyIndex (encode (.skp x)) x).map fun k => s.skipIf (s.keyDownAt k))

/-- `SKNP Vx` (R199). -/
def execSknp (x : RegIdx) (s : State) : Result :=
  s.commit ((s.keyIndex (encode (.sknp x)) x).map fun k => s.skipIf (!s.keyDownAt k))

/-- `LD Vx, K` (R201): waits; pc stays at this instruction until `State.keyDown` completes the wait (R202). -/
def execLdVxK (x : RegIdx) (s : State) : Result := .next (s.setStatus (.waiting x))

end Sys2Proof.Machine
end

