-- ==== Sys2Proof/Machine/Timers.lean ====
section
/-! DEFINITION. The meanings of 43_timers.md: LD Vx, DT; LD DT, Vx; LD ST, Vx. The tick is in
Machine/Transactions.lean. -/

namespace Sys2Proof.Machine

/-- `LD Vx, DT` (R220). -/
def execLdVxDT (x : RegIdx) (s : State) : Result := .next (s.setV x s.dt).advance

/-- `LD DT, Vx` (R221). -/
def execLdDTVx (x : RegIdx) (s : State) : Result := .next (s.setDT (s.getV x)).advance

/-- `LD ST, Vx` (R222). -/
def execLdSTVx (x : RegIdx) (s : State) : Result := .next (s.setST (s.getV x)).advance

end Sys2Proof.Machine
end

