-- ==== Sys2Proof/Machine/Step.lean ====
section
/-! DEFINITION. One `step()` (10_state.md R51, 30_encoding.md R95), and the placing of a word where the next step
fetches. -/

namespace Sys2Proof.Machine

/-- One `step()`. Running: fetch, decode, dispatch, execute, or the fault of the check that failed. Waiting and
faulted: nothing changes, and the status keeps reporting what it reports (R51, R273). -/
def step (s : State) : Host.Outcome State Fault Refusal :=
  match s.status with
  | .running =>
    match s.fetchInstr with
    | .ok i => exec i s
    | .error f => raise f s
  | .waiting _ => .next s
  | .faulted _ => .next s

/-- The state with the instruction of an opcode-table row's bits at pc, and running, so that the next step fetches
and runs exactly it (log entries 8, 17, 20). -/
def State.withFetchWord (s : State) (nbits w : Nat) : State :=
  (s.setStatus .running).placeWord (BitVec.ofNat 16 (w % 2 ^ nbits))

end Sys2Proof.Machine
end

