-- ==== Sys2Proof/Machine/Transactions.lean ====
section
/-! DEFINITION. The host's transactions and the outputs of the block (10_state.md R50 to R56, R38;
60_exceptions.md R285, R290; 70_reset_and_hazards.md R310 to R316). Each is one atomic change of the state, between
steps (R276). -/

namespace Sys2Proof.Machine

namespace State

/-- The tone output (10_state.md R38). -/
def tone (s : State) : Bool := s.st != 0

/-- A timer one tick later: down by one, with floor 0 (60_exceptions.md R285). -/
def tickDown (b : Byte) : Byte := if b = 0 then 0 else b - 1

/-- `tick_timers()` (10_state.md R52, 60_exceptions.md R285, R286): nothing changes in a faulted machine. -/
def tickTimers (s : State) : State :=
  match s.status with
  | .faulted _ => s
  | .running => (s.setDT (tickDown s.dt)).setST (tickDown s.st)
  | .waiting _ => (s.setDT (tickDown s.dt)).setST (tickDown s.st)

/-- `set_keys(snapshot)` (10_state.md R53). -/
def setKeys (s : State) (k : Vector Bool 16) : State := { s with key := k }

/-- key[k] <- true. -/
def pressKey (s : State) (k : KeyIdx) : State := s.setKeys (s.key.set k true)

/-- `key_down(k)` (10_state.md R54): the key is down, and a waiting machine stores its number, moves past the
instruction and runs (42_rand_draw_keys.md R202). -/
def keyDown (s : State) (k : KeyIdx) : State :=
  match s.status with
  | .waiting x => ((((s.pressKey k).setV x (BitVec.ofNat 8 k.val)).advance).setStatus .running)
  | .running => s.pressKey k
  | .faulted _ => s.pressKey k

/-- The free values a reset chooses from the n-th free byte on: 16 for V0..VF, two for I, one each for DT and ST
(70_reset_and_hazards.md R311; log entry 4). -/
def freeReset (n : Nat) : ResetDraw where
  v  := Vector.ofFn fun k : Fin 16 => Config.freeByte (n + k.val)
  i  := wordOfBytes (Config.freeByte (n + 16)) (Config.freeByte (n + 17))
  dt := Config.freeByte (n + 18)
  st := Config.freeByte (n + 19)

/-- `reset()` (70_reset_and_hazards.md R310 to R312): all state is discarded; the parameters stay, they are the
machine's. -/
def hostReset (s : State) : State := resetWith s.cfg (freeReset s.draws) (s.draws + 20)

/-- `load_rom(bytes)` (70_reset_and_hazards.md R314): byte i of the stream goes to 0x200 + i; a stream of more than
3584 bytes writes nothing and faults with 0x1000. -/
def loadRom (s : State) (rom : List Byte) : State :=
  if rom.length > 3584 then s.setStatus (.faulted (.outOfBounds 0x1000))
  else (s.putBytes 0x200 rom).setPc 0x200

end State

/-- The transactions of 10_state.md R50. -/
inductive Transaction where
  | reset
  | loadRom (rom : List Byte)
  | step
  | tickTimers
  | setKeys (k : Vector Bool 16)
  | keyDown (k : KeyIdx)
  deriving DecidableEq, Repr

/-- What a transaction does. -/
def Transaction.apply : Transaction → State → Result
  | .reset, s => .next s.hostReset
  | .loadRom rom, s => .next (s.loadRom rom)
  | .step, s => Sys2Proof.Machine.step s
  | .tickTimers, s => .next s.tickTimers
  | .setKeys k, s => .next (s.setKeys k)
  | .keyDown k, s => .next (s.keyDown k)

/-- A sequence of transactions, in order (60_exceptions.md R276, R290). -/
def runAll : List Transaction → State → Result
  | [], s => .next s
  | t :: ts, s =>
    match t.apply s with
    | .next s' => runAll ts s'
    | .fault f => .fault f
    | .refused r => .refused r

/-- The sequences a host may perform: load_rom only after a reset and before the first step, at most once
(70_reset_and_hazards.md R315, R316; log entry 9). `fresh` says that since the last reset there was neither a step
nor a load. -/
def Transaction.legalFrom : Bool → List Transaction → Bool
  | _, [] => true
  | _, .reset :: ts => Transaction.legalFrom true ts
  | fresh, .loadRom _ :: ts => fresh && Transaction.legalFrom false ts
  | _, .step :: ts => Transaction.legalFrom false ts
  | fresh, .tickTimers :: ts => Transaction.legalFrom fresh ts
  | fresh, .setKeys _ :: ts => Transaction.legalFrom fresh ts
  | fresh, .keyDown _ :: ts => Transaction.legalFrom fresh ts

end Sys2Proof.Machine
end

