-- ==== Sys2Proof/Safety.lean ====
section
/-! DEFINITION. The terms the claims use: the parts of the state and their agreement (frames), the registers an
instruction names as destinations, and the invariant of a machine that started at reset. -/

namespace Sys2Proof.Machine

/-! ## Frames -/

/-- The parts of the state (10_state.md R47, and the model's own fields). -/
inductive Part where
  | regs
  | index
  | pc
  | stack
  | delay
  | sound
  | memory
  | display
  | keys
  | status
  | config
  | draws
  deriving DecidableEq, Repr

/-- A part of the state reads the same in both states: registers one by one, memory byte by byte, the display pixel
by pixel. -/
def Part.same (s t : State) : Part → Prop
  | .regs => ∀ k : RegIdx, t.getV k = s.getV k
  | .index => t.i = s.i
  | .pc => t.pc = s.pc
  | .stack => t.stack = s.stack
  | .delay => t.dt = s.dt
  | .sound => t.st = s.st
  | .memory => ∀ a : Nat, t.byteAt a = s.byteAt a
  | .display => ∀ c r, FrameBuf.pixel t.fb c r = FrameBuf.pixel s.fb c r
  | .keys => ∀ k : KeyIdx, t.keyDownAt k = s.keyDownAt k
  | .status => t.status = s.status
  | .config => t.cfg = s.cfg
  | .draws => t.draws = s.draws

/-- Every part but those listed reads the same in `t` as in `s`. -/
def Frame (changed : List Part) (s t : State) : Prop := ∀ p : Part, p ∉ changed → p.same s t

/-- Every register but those listed reads the same in `t` as in `s`. -/
def RegsExcept (changed : List RegIdx) (s t : State) : Prop :=
  ∀ k : RegIdx, k ∉ changed → t.getV k = s.getV k

/-! ## What an instruction may write -/

/-- The parts an instruction may change (the last column of 10_state.md R47; a part is listed also where only some
operands, parameters or a fault change it). -/
def writesOf : Instr → List Part
  | .sys _ => [.pc, .status]
  | .cls => [.display, .pc]
  | .ret => [.stack, .pc, .status]
  | .jp _ => [.pc]
  | .call _ => [.stack, .pc, .status]
  | .seByte _ _ => [.pc]
  | .sneByte _ _ => [.pc]
  | .seReg _ _ => [.pc]
  | .ldByte _ _ => [.regs, .pc]
  | .addByte _ _ => [.regs, .pc]
  | .ldReg _ _ => [.regs, .pc]
  | .orReg _ _ => [.regs, .pc]
  | .andReg _ _ => [.regs, .pc]
  | .xorReg _ _ => [.regs, .pc]
  | .addReg _ _ => [.regs, .pc]
  | .subReg _ _ => [.regs, .pc]
  | .shr _ _ => [.regs, .pc]
  | .subnReg _ _ => [.regs, .pc]
  | .shl _ _ => [.regs, .pc]
  | .sneReg _ _ => [.pc]
  | .ldI _ => [.index, .pc]
  | .jpV0 _ => [.pc]
  | .rnd _ _ => [.regs, .pc, .draws]
  | .drw _ _ _ => [.display, .regs, .pc, .status]
  | .skp _ => [.pc, .status]
  | .sknp _ => [.pc, .status]
  | .ldVxDT _ => [.regs, .pc]
  | .ldVxK _ => [.status]
  | .ldDTVx _ => [.delay, .pc]
  | .ldSTVx _ => [.sound, .pc]
  | .addI _ => [.index, .pc]
  | .ldF _ => [.index, .pc, .status]
  | .ldB _ => [.memory, .pc, .status]
  | .storeRegs _ => [.memory, .index, .pc, .status]
  | .loadRegs _ => [.regs, .index, .pc, .status]

/-- The registers an instruction may change under parameters `c`: its destination, and VF for the instructions that
write the flag (10_state.md R23). -/
def destRegsOf (c : Config) : Instr → List RegIdx
  | .sys _ => []
  | .cls => []
  | .ret => []
  | .jp _ => []
  | .call _ => []
  | .seByte _ _ => []
  | .sneByte _ _ => []
  | .seReg _ _ => []
  | .ldByte x _ => [x]
  | .addByte x _ => [x]
  | .ldReg x _ => [x]
  | .orReg x _ => if c.logicVfReset then [x, vf] else [x]
  | .andReg x _ => if c.logicVfReset then [x, vf] else [x]
  | .xorReg x _ => if c.logicVfReset then [x, vf] else [x]
  | .addReg x _ => [x, vf]
  | .subReg x _ => [x, vf]
  | .shr x _ => [x, vf]
  | .subnReg x _ => [x, vf]
  | .shl x _ => [x, vf]
  | .sneReg _ _ => []
  | .ldI _ => []
  | .jpV0 _ => []
  | .rnd x _ => [x]
  | .drw _ _ _ => [vf]
  | .skp _ => []
  | .sknp _ => []
  | .ldVxDT x => [x]
  | .ldVxK _ => []
  | .ldDTVx _ => []
  | .ldSTVx _ => []
  | .addI _ => []
  | .ldF _ => []
  | .ldB _ => []
  | .storeRegs _ => []
  | .loadRegs x => (List.finRange 16).filter fun k => decide (k ≤ x)

/-! ## Many pushes, many pops, many ticks -/

/-- Pushes the values of the list, first to last. -/
def State.pushMany : List Word → State → Except Fault State
  | [], s => .ok s
  | w :: ws, s =>
    match s.push w with
    | .ok t => State.pushMany ws t
    | .error f => .error f

/-- Pops n values, in the order they come off. -/
def State.popMany : Nat → State → Except Fault (List Word × State)
  | 0, s => .ok ([], s)
  | n + 1, s =>
    match s.pop with
    | .ok (w, t) =>
      match State.popMany n t with
      | .ok (ws, u) => .ok (w :: ws, u)
      | .error f => .error f
    | .error f => .error f

/-- n ticks in a row. -/
def State.ticks : Nat → State → State
  | 0, s => s
  | n + 1, s => State.ticks n s.tickTimers

/-! ## The picture of a sprite -/

/-- Whether a sprite with these rows, drawn at (cx, cy), has a set bit at the pixel (c, r): the pixel is column
(c - cx) mod 64 and row (r - cy) mod 32 of the sprite (42_rand_draw_keys.md R192). -/
def spriteAt (rows : List Byte) (cx cy : Byte) (c : Fin 64) (r : Fin 32) : Bool :=
  let col := (c.val + 256 - cx.toNat) % 64
  let row := (r.val + 256 - cy.toNat) % 32
  decide (col < 8) && decide (row < rows.length) && (rows.getD row 0).getLsbD (7 - col)

/-! ## The invariant -/

/-- What holds in every state of a machine that started at reset. -/
structure Inv (s : State) : Prop where
  /-- The parameters are values R8 allows. -/
  cfgOk : s.cfg.wf = true
  /-- Memory is in its canonical form; no address above 4095 is listed (R60). -/
  memOk : s.memWf = true
  /-- At most 16 return addresses (R32). -/
  depth : s.stack.length ≤ 16
  /-- PC is at most 0x10FE, so no PC value wraps (R27). -/
  pcLe : s.pc.toNat ≤ 0x10FE
  /-- A return address is at most 0x1000: it was pushed by a CALL that could be fetched (R35). -/
  retLe : ∀ w ∈ s.stack, w.toNat ≤ 0x1000
  /-- A machine waits at the LD Vx, K it is waiting for (R201). -/
  waitAt : ∀ x, s.status = .waiting x → s.fetchInstr = .ok (.ldVxK x)

end Sys2Proof.Machine
end

