-- ==== Sys2Proof/Certificates/Slice0/Obligations.lean ====
section
/-! DEFINITION. The statements for the provers. A statement that rests on a decision the spec marks as its own
(92_eei_decisions.md) or on general knowledge says so in its docstring; and two things hold throughout: a clause
`decode … = …` rests on a bit pattern that the spec marks as general knowledge (log entry 15), and a clause on what a
fault leaves unchanged rests on the spec's decision D1 (log entry 5). `Frame l s t` says that every part of the
state but those in `l` reads the same in `t` as in `s`: registers one by one, memory byte by byte, the display pixel
by pixel. -/

open Sys2Proof Sys2Proof.Machine

/-! ## Reset and boot -/

/-- 70_reset_and_hazards.md R310, R311, R312: the state after reset, for all parameters and all values the
environment chooses. The zeros and the clear display rest on the spec's decisions D2, D3, D4 (log entries 2, 4, 7). -/
def Obligations.ResetLeavesTheStatedState : Prop :=
  (∀ (c : Config) (d : ResetDraw) (n : Nat),
    let s := State.resetWith c d n
    s.cfg = c ∧ s.pc = 0x200 ∧ s.stack = [] ∧ s.status = .running ∧
    (∀ col row, FrameBuf.pixel s.fb col row = false) ∧ (∀ k, s.keyDownAt k = false) ∧
    (∀ j, j < 80 → s.byteAt (c.fontBase.toNat + j) = c.fontData.getD j 0) ∧
    (∀ a, a < c.fontBase.toNat ∨ c.fontBase.toNat + 80 ≤ a → s.byteAt a = 0) ∧
    (c.resetRegs = .zero → (∀ k, s.getV k = 0) ∧ s.i = 0 ∧ s.dt = 0 ∧ s.st = 0 ∧ s.tone = false) ∧
    (c.resetRegs = .arbitrary → (∀ k : RegIdx, s.getV k = d.v[k]) ∧ s.i = d.i ∧ s.dt = d.dt ∧ s.st = d.st)) ∧
  State.reset = State.resetWith Config.default ResetDraw.zero 0 ∧
  (∀ s : State, ∃ d n, s.hostReset = State.resetWith s.cfg d n)

/-- The invariant of Safety.lean holds after every reset, and so at State.reset. -/
def Obligations.ResetMeetsTheInvariant : Prop :=
  (∀ (c : Config) (d : ResetDraw) (n : Nat), c.wf = true → Inv (State.resetWith c d n)) ∧
  Config.default.wf = true

/-- 70_reset_and_hazards.md R314: byte i of the ROM goes to 0x200 + i and pc is 0x200; a ROM of more than 3584 bytes
writes nothing and faults with 0x1000 (the spec's decision D27). By R315 a load is a transaction only after a reset and
before the first step; on the other states this quantifies over (after a step, waiting, faulted) it states the model's
own choice of log entry 21, which is no rule of the spec. -/
def Obligations.LoadRomPlacesTheBytes : Prop :=
  ∀ (s : State) (rom : List Byte), s.memWf = true →
    (rom.length ≤ 3584 →
      (∀ k (h : k < rom.length), (s.loadRom rom).byteAt (0x200 + k) = rom[k]) ∧
      (∀ a, a < 0x200 ∨ 0x200 + rom.length ≤ a → (s.loadRom rom).byteAt a = s.byteAt a) ∧
      (s.loadRom rom).pc = 0x200 ∧ Frame [.memory, .pc] s (s.loadRom rom)) ∧
    (3584 < rom.length →
      (s.loadRom rom).status = .faulted (.outOfBounds 0x1000) ∧ Frame [.status] s (s.loadRom rom))

/-! ## Fetch, decode, step -/

/-- 30_encoding.md R95: a running machine whose bytes at pc decode to an instruction runs that instruction, and a step
adds nothing around it: the meaning itself writes pc. -/
def Obligations.StepRunsTheDecodedInstruction : Prop :=
  ∀ (s : State) (i : Instr), s.status = .running → s.pc.toNat + 1 ≤ 4095 →
    decode s.cfg.strict59 (wordOfBytes (s.byteAt s.pc.toNat) (s.byteAt (s.pc.toNat + 1))) = .instr i →
    step s = exec i s

/-- 30_encoding.md R95, R104; 60_exceptions.md R272, R274: a running machine that cannot fetch faults with the first
address outside memory, and one that fetches an illegal word faults with the word; only the status changes (the
spec's decisions D1, D16). -/
def Obligations.FetchAndDecodeFaults : Prop :=
  ∀ (s : State), s.status = .running →
    (4095 < s.pc.toNat → ∃ t, step s = .next t ∧ t.status = .faulted (.outOfBounds s.pc) ∧ Frame [.status] s t) ∧
    (s.pc.toNat = 4095 → ∃ t, step s = .next t ∧ t.status = .faulted (.outOfBounds 0x1000) ∧ Frame [.status] s t) ∧
    (s.pc.toNat + 1 ≤ 4095 → ∀ w,
      decode s.cfg.strict59 (wordOfBytes (s.byteAt s.pc.toNat) (s.byteAt (s.pc.toNat + 1))) = .illegal w →
      w = wordOfBytes (s.byteAt s.pc.toNat) (s.byteAt (s.pc.toNat + 1)) ∧
      ∃ t, step s = .next t ∧ t.status = .faulted (.illegalOpcode w) ∧ Frame [.status] s t)

/-- 10_state.md R51: a step of a waiting or of a faulted machine changes nothing, whatever the keys are (a key already
down does not complete the wait, the spec's decision D20). -/
def Obligations.StepOfAStoppedMachineChangesNothing : Prop :=
  ∀ (s : State), (∃ x, s.status = .waiting x) ∨ (∃ f, s.status = .faulted f) → step s = .next s

/-- The model's placing of a word (log entries 8, 20): the next step fetches and runs exactly it, and nothing but
memory at pc and the status is changed by the placing. -/
def Obligations.PlacedWordIsWhatRuns : Prop :=
  ∀ (s : State) (w : Nat) (i : Instr), s.memWf = true → s.pc.toNat + 1 ≤ 4095 → w < 65536 →
    decode s.cfg.strict59 (BitVec.ofNat 16 w) = .instr i →
    step (s.withFetchWord 16 w) = exec i (s.withFetchWord 16 w) ∧
    Frame [.memory, .status] s (s.withFetchWord 16 w) ∧
    (∀ a, a ≠ s.pc.toNat → a ≠ s.pc.toNat + 1 → (s.withFetchWord 16 w).byteAt a = s.byteAt a)

/-- 30_encoding.md R98 to R103: decoding the word of a well-formed instruction gives it back, under both values of
STRICT_5_9 (the bit patterns are the spec's general knowledge, log entry 15). -/
def Obligations.DecodeOfEncodeIsTheInstruction : Prop :=
  ∀ (strict : Bool) (i : Instr), i.wellFormed = true → decode strict (encode i) = .instr i

/-- 30_encoding.md R98, R100: a word that decodes is the encoding of its well-formed instruction, but for the words
5xyn and 9xyn with n ≠ 0, which decode under STRICT_5_9 = false as the word with n = 0 does (log entry 13). -/
def Obligations.EncodeOfDecodeIsTheWord : Prop :=
  ∀ (strict : Bool) (w : Word) (i : Instr), decode strict w = .instr i →
    i.wellFormed = true ∧
    (encode i = w ∨
      (strict = false ∧ (fieldOp w = 5 ∨ fieldOp w = 9) ∧ fieldN w ≠ 0 ∧ encode i = w &&& 0xFFF0))

/-- 30_encoding.md R101 to R104: the illegal words are exactly these (the patterns are general knowledge; STRICT_5_9
is the spec's decision D15). -/
def Obligations.IllegalWordsAreExactlyThese : Prop :=
  ∀ (strict : Bool) (w w' : Word), decode strict w = .illegal w' ↔
    w' = w ∧
    ((fieldOp w = 8 ∧ fieldN w ∈ [8, 9, 10, 11, 12, 13, 15]) ∨
     (fieldOp w = 0xE ∧ fieldKK w ∉ [0x9E, 0xA1]) ∨
     (fieldOp w = 0xF ∧ fieldKK w ∉ [0x07, 0x0A, 0x15, 0x18, 0x1E, 0x29, 0x33, 0x55, 0x65]) ∨
     (strict = true ∧ (fieldOp w = 5 ∨ fieldOp w = 9) ∧ fieldN w ≠ 0))

/-- Nine distinct words, one or two of each family: 00E0, 6005, 1200 (95_test_vectors.md E2), D015 (E7), 8F14 (A12),
F415 (T2), F265 (M16) and 5121 (D10, under both values of STRICT_5_9) from the spec's vectors, and F315 written out from
the pattern Fx15 of 30_encoding.md R98. -/
def Obligations.SampleWordsDecodeAsWrittenOut : Prop :=
  decode false 0x00E0 = .instr .cls ∧
  decode false 0x6005 = .instr (.ldByte 0 5) ∧
  decode false 0x1200 = .instr (.jp 0x200) ∧
  decode false 0xD015 = .instr (.drw 0 1 5) ∧
  decode false 0x8F14 = .instr (.addReg 15 1) ∧
  decode false 0xF315 = .instr (.ldDTVx 3) ∧
  decode false 0xF415 = .instr (.ldDTVx 4) ∧
  decode false 0xF265 = .instr (.loadRegs 2) ∧
  decode false 0x5121 = .instr (.seReg 1 2) ∧
  decode true 0x5121 = .illegal 0x5121

/-! ## Faults and the whole machine -/

/-- 40_flow.md R121, 60_exceptions.md R272: when a step of a running machine faults, the state is the one before the
step with the faulted status, and nothing else is written (the spec's decision D1). -/
def Obligations.FaultsArePrecise : Prop :=
  ∀ (s t : State) (f : Fault), s.status = .running → step s = .next t → t.status = .faulted f →
    t = s.setStatus (.faulted f)

/-- 60_exceptions.md R273: however often the host steps and ticks a faulted machine, nothing changes (the spec's
decisions D1, D32). -/
def Obligations.FaultedMachineIsTerminal : Prop :=
  ∀ (s : State) (f : Fault) (ts : List Transaction), s.status = .faulted f →
    (∀ t ∈ ts, t = .step ∨ t = .tickTimers) → runAll ts s = .next s

/-- A step always answers a next state: a fault of the engine is an entry into the faulted status (log entry 5), and
no instruction is left without a meaning. -/
def Obligations.EveryStepAnswersANextState : Prop :=
  (∀ s : State, ∃ t, step s = .next t) ∧
  (∀ (ts : List Transaction) (s : State), ∃ t, runAll ts s = .next t)

/-- The invariant (parameters as R8 allows, memory canonical, at most 16 return addresses, PC at most 0x10FE, return
addresses at most 0x1000, a waiting machine stands at its LD Vx, K) is kept by every step. -/
def Obligations.StepKeepsTheInvariant : Prop :=
  ∀ (s s' : State), Inv s → step s = .next s' → Inv s'

/-- The invariant holds after every legal sequence of host transactions from reset (10_state.md R27, R32, R50;
60_exceptions.md R290; 70_reset_and_hazards.md R315, R316). Which sequences are legal is `Transaction.legalFrom`, the
model's choice of log entry 9: load_rom at most once between two resets and before the first step, with ticks and key
events allowed before it. -/
def Obligations.EveryHostSequenceKeepsTheInvariant : Prop :=
  ∀ (c : Config) (d : ResetDraw) (n : Nat) (ts : List Transaction) (s' : State), c.wf = true →
    Transaction.legalFrom true ts = true → runAll ts (State.resetWith c d n) = .next s' → Inv s'

/-- 10_state.md R47, R39, R32, R37, 20_memory.md R71: an instruction changes only the parts the state summary names
for it. In particular memory only by LD B and LD [I], the display only by CLS and DRW, the stack only by CALL and RET,
DT only by LD DT, ST only by LD ST, and keys and parameters by none. -/
def Obligations.InstructionsWriteOnlyTheirParts : Prop :=
  ∀ (i : Instr) (s t : State), exec i s = .next t → Frame (writesOf i) s t

/-- 10_state.md R23: an instruction changes only its destination registers, and VF only where the spec names it as a
flag (the list for OR, AND, XOR rests on the spec's decision D9, for 7xkk and Fx1E on D21, D22). -/
def Obligations.OnlyDestinationRegistersChange : Prop :=
  ∀ (i : Instr) (s t : State), exec i s = .next t → RegsExcept (destRegsOf s.cfg i) s t

/-- 10_state.md R37: "no opcode reads it directly": with another value in ST an instruction answers the same state but
for ST, and LD ST the very same state. -/
def Obligations.NoInstructionReadsTheSoundTimer : Prop :=
  ∀ (i : Instr) (s t : State) (b : Byte), exec i s = .next t →
    ∃ t', exec i (s.setST b) = .next t' ∧ t'.setST t.st = t ∧
      (((∃ x, i = .ldSTVx x) ∧ t' = t) ∨ ((∀ x, i ≠ .ldSTVx x) ∧ t'.st = b))

/-- 60_exceptions.md R292, 10_state.md R44: only SKP and SKNP read the key snapshot: with other keys, any other
instruction answers the same state but for the keys. -/
def Obligations.OnlyKeySkipsReadTheKeys : Prop :=
  ∀ (i : Instr) (s t : State) (k : Vector Bool 16), (∀ x, i ≠ .skp x ∧ i ≠ .sknp x) → exec i s = .next t →
    exec i (s.setKeys k) = .next (t.setKeys k)

/-! ## Control flow (40_flow.md) -/

/-- R125: SYS goes on to the next instruction under SYS_POLICY = nop, and faults Undefined with its word under
SYS_POLICY = fault (the spec's decision D7). -/
def Obligations.SysGoesOnOrFaultsByPolicy : Prop :=
  ∀ (nnn : Addr12) (s : State),
    (s.cfg.sysPolicy = .nop → ∃ t, exec (.sys nnn) s = .next t ∧ t.pc = s.pc + 2 ∧ Frame [.pc] s t) ∧
    (s.cfg.sysPolicy = .fault →
      ∃ t, exec (.sys nnn) s = .next t ∧ t.status = .faulted (.undefined (0x0#4 ++ nnn)) ∧ Frame [.status] s t)

/-- R126: every pixel 0, VF unchanged, no exception. -/
def Obligations.ClsClearsTheDisplay : Prop :=
  ∀ (s : State), ∃ t, exec .cls s = .next t ∧ (∀ c r, FrameBuf.pixel t.fb c r = false) ∧ t.pc = s.pc + 2 ∧
    Frame [.display, .pc] s t ∧ ∀ strict, decode strict 0x00E0 = .instr .cls

/-- R127 and 10_state.md R34: RET sets pc to the top entry itself and removes it; with an empty stack it faults
StackUnderflow. -/
def Obligations.RetPopsThePc : Prop :=
  ∀ (s : State),
    (∀ l w, s.stack = l ++ [w] →
      ∃ t, exec .ret s = .next t ∧ t.pc = w ∧ t.stack = l ∧ Frame [.stack, .pc] s t) ∧
    (s.stack = [] → ∃ t, exec .ret s = .next t ∧ t.status = .faulted .stackUnderflow ∧ Frame [.status] s t)

/-- R128: pc is nnn, zero-extended. -/
def Obligations.JpSetsThePc : Prop :=
  ∀ (nnn : Addr12) (s : State), ∃ t, exec (.jp nnn) s = .next t ∧ t.pc.toNat = nnn.toNat ∧ Frame [.pc] s t ∧
    ∀ strict, decode strict (0x1#4 ++ nnn) = .instr (.jp nnn)

/-- R129: CALL pushes pc + 2 and jumps; with 16 entries it faults StackOverflow, nothing pushed and pc unchanged. -/
def Obligations.CallPushesTheNextPcAndJumps : Prop :=
  ∀ (nnn : Addr12) (s : State),
    (s.stack.length < 16 →
      ∃ t, exec (.call nnn) s = .next t ∧ t.stack = s.stack ++ [s.pc + 2] ∧ t.pc.toNat = nnn.toNat ∧
        Frame [.stack, .pc] s t) ∧
    (s.stack.length = 16 →
      ∃ t, exec (.call nnn) s = .next t ∧ t.status = .faulted .stackOverflow ∧ Frame [.status] s t) ∧
    ∀ strict, decode strict (0x2#4 ++ nnn) = .instr (.call nnn)

/-- R127, R129, R135: a RET that finds the stack as a CALL left it comes back to the instruction after the CALL, with
the stack as it was before, whatever else the subroutine did. -/
def Obligations.RetAfterCallComesBack : Prop :=
  ∀ (nnn : Addr12) (s t u : State), s.stack.length < 16 → exec (.call nnn) s = .next t → u.stack = t.stack →
    ∃ v, exec .ret u = .next v ∧ v.pc = s.pc + 2 ∧ v.stack = s.stack ∧ Frame [.stack, .pc] u v

/-- R130, R131: the skips on an immediate, for every register (VF among them), advance pc by 4 when their condition
holds and by 2 otherwise, and change nothing else. -/
def Obligations.ImmediateSkipsCompare : Prop :=
  ∀ (x : RegIdx) (kk : Byte) (s : State),
    (∃ t, exec (.seByte x kk) s = .next t ∧ (s.getV x = kk → t.pc = s.pc + 4) ∧
      (s.getV x ≠ kk → t.pc = s.pc + 2) ∧ Frame [.pc] s t) ∧
    (∃ t, exec (.sneByte x kk) s = .next t ∧ (s.getV x ≠ kk → t.pc = s.pc + 4) ∧
      (s.getV x = kk → t.pc = s.pc + 2) ∧ Frame [.pc] s t) ∧
    (∀ strict, decode strict (0x3#4 ++ nib x ++ kk) = .instr (.seByte x kk)) ∧
    (∀ strict, decode strict (0x4#4 ++ nib x ++ kk) = .instr (.sneByte x kk))

/-- R132, R133: the skips on two registers; for x = y SE always skips and SNE never (which words decode to them is the
spec's decision D15, EncodeOfDecodeIsTheWord). -/
def Obligations.RegisterSkipsCompare : Prop :=
  ∀ (x y : RegIdx) (s : State),
    (∃ t, exec (.seReg x y) s = .next t ∧ (s.getV x = s.getV y → t.pc = s.pc + 4) ∧
      (s.getV x ≠ s.getV y → t.pc = s.pc + 2) ∧ Frame [.pc] s t) ∧
    (∃ t, exec (.sneReg x y) s = .next t ∧ (s.getV x ≠ s.getV y → t.pc = s.pc + 4) ∧
      (s.getV x = s.getV y → t.pc = s.pc + 2) ∧ Frame [.pc] s t)

/-- R134: pc is the exact sum of nnn and V0, or of nnn and V[nnn[11:8]] under JUMP_OFFSET_REG = vx, never reduced
modulo 4096 (the spec's decisions D11, D16). -/
def Obligations.JpV0AddsTheOffset : Prop :=
  ∀ (nnn : Addr12) (s : State), ∃ t, exec (.jpV0 nnn) s = .next t ∧
    (s.cfg.jumpOffsetReg = .v0 → t.pc.toNat = nnn.toNat + (s.getV 0).toNat) ∧
    (s.cfg.jumpOffsetReg = .vx →
      t.pc.toNat = nnn.toNat + (s.getV (Fin.ofNat 16 (nnn.toNat / 256))).toNat) ∧
    Frame [.pc] s t

/-! ## Loads and arithmetic (41_alu.md) -/

/-- R150: LD Vx, byte; with x = 15 an ordinary write of VF. -/
def Obligations.LdByteLoadsTheImmediate : Prop :=
  ∀ (x : RegIdx) (kk : Byte) (s : State), ∃ t, exec (.ldByte x kk) s = .next t ∧ t.getV x = kk ∧
    t.pc = s.pc + 2 ∧ RegsExcept [x] s t ∧ Frame [.regs, .pc] s t ∧
    ∀ strict, decode strict (0x6#4 ++ nib x ++ kk) = .instr (.ldByte x kk)

/-- R151: ADD Vx, byte is modulo 256 and writes no flag (the spec's decision D21). -/
def Obligations.AddByteAddsWithoutFlag : Prop :=
  ∀ (x : RegIdx) (kk : Byte) (s : State), ∃ t, exec (.addByte x kk) s = .next t ∧
    (t.getV x).toNat = ((s.getV x).toNat + kk.toNat) % 256 ∧
    t.pc = s.pc + 2 ∧ RegsExcept [x] s t ∧ Frame [.regs, .pc] s t

/-- R152: LD Vx, Vy. -/
def Obligations.LdRegCopiesTheRegister : Prop :=
  ∀ (x y : RegIdx) (s : State), ∃ t, exec (.ldReg x y) s = .next t ∧ t.getV x = s.getV y ∧
    t.pc = s.pc + 2 ∧ RegsExcept [x] s t ∧ Frame [.regs, .pc] s t ∧
    ∀ strict, decode strict (0x8#4 ++ nib x ++ nib y ++ 0x0#4) = .instr (.ldReg x y)

/-- R153, R154, R155: bit j of Vx is the OR, AND or XOR of the operands' bits; under LOGIC_VF_RESET = true VF is 0
afterwards, for x = 15 too, and under false no flag is written (the spec's decision D9). -/
def Obligations.LogicWorksBitByBit : Prop :=
  ∀ (x y : RegIdx) (s : State) (i : Instr) (f : Bool → Bool → Bool),
    (i = .orReg x y ∧ f = or) ∨ (i = .andReg x y ∧ f = and) ∨ (i = .xorReg x y ∧ f = xor) →
    ∃ t, exec i s = .next t ∧ t.pc = s.pc + 2 ∧ Frame [.regs, .pc] s t ∧
      ((s.cfg.logicVfReset = false ∨ x ≠ 15) →
        ∀ j, j < 8 → (t.getV x).getLsbD j = f ((s.getV x).getLsbD j) ((s.getV y).getLsbD j)) ∧
      (s.cfg.logicVfReset = false → RegsExcept [x] s t) ∧
      (s.cfg.logicVfReset = true → t.getV 15 = 0 ∧ RegsExcept [x, 15] s t)

/-- R156, R122: ADD Vx, Vy; VF is the carry, and for x = 15 VF is the carry and not the sum (the value 1 of a carry
is the spec's decision D34). -/
def Obligations.AddRegAddsWithCarry : Prop :=
  ∀ (x y : RegIdx) (s : State), ∃ t, exec (.addReg x y) s = .next t ∧
    (x ≠ 15 → (t.getV x).toNat = ((s.getV x).toNat + (s.getV y).toNat) % 256) ∧
    (t.getV 15).toNat = (if (s.getV x).toNat + (s.getV y).toNat > 255 then 1 else 0) ∧
    t.pc = s.pc + 2 ∧ RegsExcept [x, 15] s t ∧ Frame [.regs, .pc] s t

/-- R157, R159, R122: SUB and SUBN are modulo 256, VF is 1 when there is no borrow (equal operands among them) and 0
otherwise, and for x = 15 VF is the flag. -/
def Obligations.SubtractionsSetNotBorrow : Prop :=
  ∀ (x y : RegIdx) (s : State),
    (∃ t, exec (.subReg x y) s = .next t ∧
      (x ≠ 15 → (t.getV x).toNat = ((s.getV x).toNat + 256 - (s.getV y).toNat) % 256) ∧
      (t.getV 15).toNat = (if (s.getV x).toNat ≥ (s.getV y).toNat then 1 else 0) ∧
      t.pc = s.pc + 2 ∧ RegsExcept [x, 15] s t ∧ Frame [.regs, .pc] s t) ∧
    (∃ t, exec (.subnReg x y) s = .next t ∧
      (x ≠ 15 → (t.getV x).toNat = ((s.getV y).toNat + 256 - (s.getV x).toNat) % 256) ∧
      (t.getV 15).toNat = (if (s.getV y).toNat ≥ (s.getV x).toNat then 1 else 0) ∧
      t.pc = s.pc + 2 ∧ RegsExcept [x, 15] s t ∧ Frame [.regs, .pc] s t) ∧
    (∀ strict, decode strict (0x8#4 ++ nib x ++ nib y ++ 0x5#4) = .instr (.subReg x y)) ∧
    (∀ strict, decode strict (0x8#4 ++ nib x ++ nib y ++ 0x7#4) = .instr (.subnReg x y))

/-- R158, R160: the shifts by one of Vx, or of Vy under SHIFT_SOURCE = vy; VF is the bit shifted out, also for x = 15
(the spec's decision D8). -/
def Obligations.ShiftsMoveByOneBit : Prop :=
  ∀ (x y : RegIdx) (s : State) (b : Byte),
    (s.cfg.shiftSource = .vx ∧ b = s.getV x) ∨ (s.cfg.shiftSource = .vy ∧ b = s.getV y) →
    (∃ t, exec (.shr x y) s = .next t ∧ (x ≠ 15 → (t.getV x).toNat = b.toNat / 2) ∧
      (t.getV 15).toNat = b.toNat % 2 ∧
      t.pc = s.pc + 2 ∧ RegsExcept [x, 15] s t ∧ Frame [.regs, .pc] s t) ∧
    (∃ t, exec (.shl x y) s = .next t ∧ (x ≠ 15 → (t.getV x).toNat = b.toNat * 2 % 256) ∧
      (t.getV 15).toNat = b.toNat / 128 ∧
      t.pc = s.pc + 2 ∧ RegsExcept [x, 15] s t ∧ Frame [.regs, .pc] s t)

/-! ## Random, draw, keys (42_rand_draw_keys.md) -/

/-- R190, R191: RND masks the next free byte, of which nothing is known, and the next draw is another one (the spec's
decision D23; log entry 3). -/
def Obligations.RndMasksAFreeByte : Prop :=
  ∀ (x : RegIdx) (kk : Byte) (s : State), ∃ t, exec (.rnd x kk) s = .next t ∧
    t.getV x = Config.freeByte s.draws &&& kk ∧ t.draws = s.draws + 1 ∧
    t.pc = s.pc + 2 ∧ RegsExcept [x] s t ∧ Frame [.regs, .pc, .draws] s t

/-- R192, R193, R194: DRW XORs the n rows at I into the display at (Vx, Vy) with wrap-around, sets VF to 1 exactly when
a pixel went from 1 to 0, and changes nothing else; the coordinates are read before VF is written. It runs for every
n ≠ 0 when the read is in bounds, by READ_SEQ_BOUND (the spec's decisions D12, D13, D30, D34). -/
def Obligations.DrwXorsTheSprite : Prop :=
  ∀ (x y : RegIdx) (n : Fin 16) (s : State), n ≠ 0 →
    (s.cfg.readSeqBound = .legacy16 ∧ s.i.toNat ≤ 4080) ∨
      (s.cfg.readSeqBound = .exact ∧ s.i.toNat + n.val ≤ 4096) →
    ∃ t, exec (.drw x y n) s = .next t ∧
      (∀ c r, FrameBuf.pixel t.fb c r =
        xor (FrameBuf.pixel s.fb c r) (spriteAt (s.bytesFrom s.i.toNat n.val) (s.getV x) (s.getV y) c r)) ∧
      (t.getV 15 = 1 ∨ t.getV 15 = 0) ∧
      (t.getV 15 = 1 ↔ ∃ c r, FrameBuf.pixel s.fb c r = true ∧ FrameBuf.pixel t.fb c r = false) ∧
      t.pc = s.pc + 2 ∧ RegsExcept [15] s t ∧ Frame [.display, .regs, .pc] s t

/-- R193, 20_memory.md R63: where DRW does not draw: n = 0 comes first, and faults Undefined with the word or, under
DRAW_ZERO_HEIGHT = empty, sets VF to 0 and goes on; then a read out of bounds faults with I (the spec's decisions D12,
D13, D14). -/
def Obligations.DrwFaultsWhereItCannotDraw : Prop :=
  ∀ (x y : RegIdx) (n : Fin 16) (s : State),
    (n = 0 → s.cfg.drawZeroHeight = .fault →
      ∃ t, exec (.drw x y n) s = .next t ∧
        t.status = .faulted (.undefined (0xD#4 ++ nib x ++ nib y ++ 0x0#4)) ∧ Frame [.status] s t) ∧
    (n = 0 → s.cfg.drawZeroHeight = .empty →
      ∃ t, exec (.drw x y n) s = .next t ∧ t.getV 15 = 0 ∧ t.pc = s.pc + 2 ∧ RegsExcept [15] s t ∧
        Frame [.regs, .pc] s t) ∧
    (n ≠ 0 → (s.cfg.readSeqBound = .legacy16 ∧ 4080 < s.i.toNat) ∨
        (s.cfg.readSeqBound = .exact ∧ 4096 < s.i.toNat + n.val) →
      ∃ t, exec (.drw x y n) s = .next t ∧ t.status = .faulted (.outOfBounds s.i) ∧ Frame [.status] s t)

/-- R195: drawing the same sprite twice at the same coordinates restores the display, and the second draw reports a
collision exactly when the first one set a pixel. That a sprite may have no rows is the model's choice (log entry 25). -/
def Obligations.DrawingTwiceRestoresTheDisplay : Prop :=
  ∀ (f : FrameBuf) (cx cy : Byte) (p : Sprite),
    (FrameBuf.draw (FrameBuf.draw f cx cy p).1 cx cy p).1 = f ∧
    ((FrameBuf.draw (FrameBuf.draw f cx cy p).1 cx cy p).2 = true ↔
      ∃ c r, FrameBuf.pixel f c r = false ∧ FrameBuf.pixel (FrameBuf.draw f cx cy p).1 c r = true)

/-- R196, R198, R199: SKP skips when key V[x] is down, SKNP when it is up; a value above 15 names its low nibble or
faults Undefined with the word, by KEY_INDEX_WIDE (the spec's decisions D6, D24). -/
def Obligations.KeySkipsReadTheSnapshot : Prop :=
  ∀ (x : RegIdx) (s : State),
    ((s.getV x).toNat ≤ 15 ∨ s.cfg.keyIndexWide = .lowNibble →
      (∃ t, exec (.skp x) s = .next t ∧
        t.pc = (if s.keyDownAt (Fin.ofNat 16 (s.getV x).toNat) then s.pc + 4 else s.pc + 2) ∧ Frame [.pc] s t) ∧
      (∃ t, exec (.sknp x) s = .next t ∧
        t.pc = (if s.keyDownAt (Fin.ofNat 16 (s.getV x).toNat) then s.pc + 2 else s.pc + 4) ∧ Frame [.pc] s t)) ∧
    (15 < (s.getV x).toNat → s.cfg.keyIndexWide = .fault →
      (∃ t, exec (.skp x) s = .next t ∧ t.status = .faulted (.undefined (0xE#4 ++ nib x ++ 0x9E#8)) ∧
        Frame [.status] s t) ∧
      (∃ t, exec (.sknp x) s = .next t ∧ t.status = .faulted (.undefined (0xE#4 ++ nib x ++ 0xA1#8)) ∧
        Frame [.status] s t))

/-- R201, R202, 10_state.md R54: LD Vx, K enters the wait with pc at the instruction, and a key-down edge sets the key,
stores its number in Vx, moves pc past the instruction and runs; in any other status it sets the key only (the spec's
decisions D20, D33). -/
def Obligations.WaitForKeyUntilAKeyDownEdge : Prop :=
  (∀ (x : RegIdx) (s : State), ∃ t, exec (.ldVxK x) s = .next t ∧ t.status = .waiting x ∧ Frame [.status] s t) ∧
  (∀ (s : State) (x : RegIdx) (k : KeyIdx), s.status = .waiting x →
    ((s.keyDown k).getV x).toNat = k.val ∧ (s.keyDown k).pc = s.pc + 2 ∧ (s.keyDown k).status = .running ∧
    (∀ j, (s.keyDown k).keyDownAt j = (decide (j = k) || s.keyDownAt j)) ∧
    RegsExcept [x] s (s.keyDown k) ∧ Frame [.regs, .pc, .status, .keys] s (s.keyDown k)) ∧
  (∀ (s : State) (k : KeyIdx), (∀ x, s.status ≠ .waiting x) →
    (∀ j, (s.keyDown k).keyDownAt j = (decide (j = k) || s.keyDownAt j)) ∧ Frame [.keys] s (s.keyDown k))

/-! ## Timers (43_timers.md, 60_exceptions.md) -/

/-- R220, R221: LD Vx, DT reads the delay timer and LD DT, Vx overwrites it. -/
def Obligations.DelayTimerIsReadAndSet : Prop :=
  ∀ (x : RegIdx) (s : State),
    (∃ t, exec (.ldVxDT x) s = .next t ∧ t.getV x = s.dt ∧ t.pc = s.pc + 2 ∧ RegsExcept [x] s t ∧
      Frame [.regs, .pc] s t) ∧
    (∃ t, exec (.ldDTVx x) s = .next t ∧ t.dt = s.getV x ∧ t.pc = s.pc + 2 ∧ Frame [.delay, .pc] s t) ∧
    (∀ strict, decode strict (0xF#4 ++ nib x ++ 0x07#8) = .instr (.ldVxDT x)) ∧
    (∀ strict, decode strict (0xF#4 ++ nib x ++ 0x15#8) = .instr (.ldDTVx x))

/-- R222, 10_state.md R38: LD ST, Vx overwrites the sound timer, and the tone is on exactly when Vx is not 0 (the
spec's decision D29). -/
def Obligations.SoundTimerIsSet : Prop :=
  ∀ (x : RegIdx) (s : State), ∃ t, exec (.ldSTVx x) s = .next t ∧ t.st = s.getV x ∧
    (t.tone = true ↔ s.getV x ≠ 0) ∧ t.pc = s.pc + 2 ∧ Frame [.sound, .pc] s t

/-- 60_exceptions.md R285, R286, 10_state.md R52: a tick touches the two timers only, also in a waiting machine, and
nothing in a faulted one (the spec's decision D19). -/
def Obligations.TickTouchesOnlyTheTimers : Prop :=
  ∀ (s : State),
    ((∀ f, s.status ≠ .faulted f) →
      s.tickTimers.dt.toNat = s.dt.toNat - 1 ∧ s.tickTimers.st.toNat = s.st.toNat - 1 ∧
      Frame [.delay, .sound] s s.tickTimers) ∧
    ((∃ f, s.status = .faulted f) → s.tickTimers = s)

/-- 60_exceptions.md R288: n ticks take each timer down by n, with floor 0; the two decay independently. -/
def Obligations.TimersDecayMonotonically : Prop :=
  ∀ (n : Nat) (s : State), (∀ f, s.status ≠ .faulted f) →
    (State.ticks n s).dt.toNat = s.dt.toNat - n ∧ (State.ticks n s).st.toNat = s.st.toNat - n

/-- 10_state.md R53: set_keys replaces the snapshot and changes nothing else. -/
def Obligations.SetKeysReplacesTheSnapshot : Prop :=
  ∀ (s : State) (k : Vector Bool 16),
    (∀ j : KeyIdx, (s.setKeys k).keyDownAt j = k[j]) ∧ Frame [.keys] s (s.setKeys k)

/-! ## Index register and memory (44_index_memory.md, 20_memory.md) -/

/-- R240: LD I, addr. -/
def Obligations.LdILoadsTheAddress : Prop :=
  ∀ (nnn : Addr12) (s : State), ∃ t, exec (.ldI nnn) s = .next t ∧ t.i.toNat = nnn.toNat ∧ t.pc = s.pc + 2 ∧
    Frame [.index, .pc] s t ∧ ∀ strict, decode strict (0xA#4 ++ nnn) = .instr (.ldI nnn)

/-- R241: ADD I, Vx is modulo 2^16 and writes no flag (the spec's decision D22). -/
def Obligations.AddIAddsWithoutFlag : Prop :=
  ∀ (x : RegIdx) (s : State), ∃ t, exec (.addI x) s = .next t ∧
    t.i.toNat = (s.i.toNat + (s.getV x).toNat) % 65536 ∧ t.pc = s.pc + 2 ∧ Frame [.index, .pc] s t

/-- R242: LD F, Vx points I at the glyph of the digit; a value above 15 takes its low nibble or faults Undefined with
the word, by FONT_DIGIT_WIDE (the spec's decisions D4, D5). -/
def Obligations.LdFPointsAtTheGlyph : Prop :=
  ∀ (x : RegIdx) (s : State),
    ((s.getV x).toNat ≤ 15 ∨ s.cfg.fontDigitWide = .lowNibble →
      ∃ t, exec (.ldF x) s = .next t ∧
        t.i.toNat = (s.cfg.fontBase.toNat + 5 * ((s.getV x).toNat % 16)) % 65536 ∧
        t.pc = s.pc + 2 ∧ Frame [.index, .pc] s t) ∧
    (15 < (s.getV x).toNat → s.cfg.fontDigitWide = .fault →
      ∃ t, exec (.ldF x) s = .next t ∧ t.status = .faulted (.undefined (0xF#4 ++ nib x ++ 0x29#8)) ∧
        Frame [.status] s t)

/-- R243, 20_memory.md R66: LD B, Vx stores the hundreds, tens and ones digits at I, I + 1, I + 2 and changes no other
byte; when I + 2 is above 4095 it faults with I and writes nothing. -/
def Obligations.LdBStoresTheDigits : Prop :=
  ∀ (x : RegIdx) (s : State), s.memWf = true →
    (s.i.toNat + 2 ≤ 4095 →
      ∃ t, exec (.ldB x) s = .next t ∧
        (t.byteAt s.i.toNat).toNat = (s.getV x).toNat / 100 ∧
        (t.byteAt (s.i.toNat + 1)).toNat = (s.getV x).toNat / 10 % 10 ∧
        (t.byteAt (s.i.toNat + 2)).toNat = (s.getV x).toNat % 10 ∧
        (∀ a, a < s.i.toNat ∨ s.i.toNat + 3 ≤ a → t.byteAt a = s.byteAt a) ∧
        t.pc = s.pc + 2 ∧ Frame [.memory, .pc] s t) ∧
    (4095 < s.i.toNat + 2 →
      ∃ t, exec (.ldB x) s = .next t ∧ t.status = .faulted (.outOfBounds s.i) ∧ Frame [.status] s t) ∧
    ∀ strict, decode strict (0xF#4 ++ nib x ++ 0x33#8) = .instr (.ldB x)

/-- R244, 20_memory.md R65: LD [I], Vx stores V0..Vx at I..I + x and changes no other byte, and I moves by
LOADSTORE_I; when I + x is above 4095 it faults with I and writes nothing (the spec's decisions D1, D10). -/
def Obligations.StoreRegsStoresTheBlock : Prop :=
  ∀ (x : RegIdx) (s : State), s.memWf = true →
    (s.i.toNat + x.val ≤ 4095 →
      ∃ t, exec (.storeRegs x) s = .next t ∧
        (∀ k : RegIdx, k ≤ x → t.byteAt (s.i.toNat + k.val) = s.getV k) ∧
        (∀ a, a < s.i.toNat ∨ s.i.toNat + x.val < a → t.byteAt a = s.byteAt a) ∧
        (s.cfg.loadStoreI = .unchanged → t.i = s.i) ∧
        (s.cfg.loadStoreI = .plusXPlus1 → t.i.toNat = (s.i.toNat + x.val + 1) % 65536) ∧
        (s.cfg.loadStoreI = .plusX → t.i.toNat = (s.i.toNat + x.val) % 65536) ∧
        t.pc = s.pc + 2 ∧ Frame [.memory, .index, .pc] s t) ∧
    (4095 < s.i.toNat + x.val →
      ∃ t, exec (.storeRegs x) s = .next t ∧ t.status = .faulted (.outOfBounds s.i) ∧ Frame [.status] s t)

/-- R245, 20_memory.md R63: LD Vx, [I] loads V0..Vx from I..I + x, stores nothing, and I moves by LOADSTORE_I; a read
out of bounds, by READ_SEQ_BOUND, faults with I (the spec's decisions D10, D12). -/
def Obligations.LoadRegsLoadsTheBlock : Prop :=
  ∀ (x : RegIdx) (s : State),
    ((s.cfg.readSeqBound = .legacy16 ∧ s.i.toNat ≤ 4080) ∨
        (s.cfg.readSeqBound = .exact ∧ s.i.toNat + x.val ≤ 4095) →
      ∃ t, exec (.loadRegs x) s = .next t ∧
        (∀ k : RegIdx, k ≤ x → t.getV k = s.byteAt (s.i.toNat + k.val)) ∧
        (∀ k : RegIdx, x < k → t.getV k = s.getV k) ∧
        (s.cfg.loadStoreI = .unchanged → t.i = s.i) ∧
        (s.cfg.loadStoreI = .plusXPlus1 → t.i.toNat = (s.i.toNat + x.val + 1) % 65536) ∧
        (s.cfg.loadStoreI = .plusX → t.i.toNat = (s.i.toNat + x.val) % 65536) ∧
        t.pc = s.pc + 2 ∧ Frame [.regs, .index, .pc] s t) ∧
    ((s.cfg.readSeqBound = .legacy16 ∧ 4080 < s.i.toNat) ∨
        (s.cfg.readSeqBound = .exact ∧ 4095 < s.i.toNat + x.val) →
      ∃ t, exec (.loadRegs x) s = .next t ∧ t.status = .faulted (.outOfBounds s.i) ∧ Frame [.status] s t)

/-- 20_memory.md R68, R61, R62: for every address 0..4095 and every byte, write and then read gives the byte, and no other
byte changes; a write or read at 4096 and above fails with the address. The canonical form that the premise asks for and
that the write keeps is the model's own (log entry 7), no rule of the spec. -/
def Obligations.MemoryRoundTrip : Prop :=
  ∀ (s : State) (a : Word) (b : Byte), s.memWf = true →
    (a.toNat ≤ 4095 →
      ∃ t, s.write a b = .ok t ∧ t.read a = .ok b ∧ (∀ k, k ≠ a.toNat → t.byteAt k = s.byteAt k) ∧
        t.memWf = true ∧ Frame [.memory] s t) ∧
    (4096 ≤ a.toNat → s.write a b = .error (.outOfBounds a) ∧ s.read a = .error (.outOfBounds a))

/-- 20_memory.md R80, R69, 70_reset_and_hazards.md R321: after LD [I], Vx or LD B, Vx, a fetch at any pc, in the state
after the store (u = t) or in any later one whose memory reads as it did then, gives a word each of whose two bytes, the
first the high one, is the byte just stored where the store wrote it, and the byte that was there before where it did
not. The store may cover both bytes of the word, one of them, or none. -/
def Obligations.StoresAreSeenByTheNextFetch : Prop :=
  ∀ (s t u : State) (x : RegIdx), s.memWf = true → (∀ a, u.byteAt a = t.byteAt a) → u.pc.toNat + 1 ≤ 4095 →
    (s.i.toNat + x.val ≤ 4095 → exec (.storeRegs x) s = .next t →
      ∃ hi lo, u.fetchWord = .ok (wordOfBytes hi lo) ∧
        (∀ k : RegIdx, k ≤ x → u.pc.toNat = s.i.toNat + k.val → hi = s.getV k) ∧
        (∀ k : RegIdx, k ≤ x → u.pc.toNat + 1 = s.i.toNat + k.val → lo = s.getV k) ∧
        (u.pc.toNat < s.i.toNat ∨ s.i.toNat + x.val < u.pc.toNat → hi = s.byteAt u.pc.toNat) ∧
        (u.pc.toNat + 1 < s.i.toNat ∨ s.i.toNat + x.val < u.pc.toNat + 1 → lo = s.byteAt (u.pc.toNat + 1))) ∧
    (s.i.toNat + 2 ≤ 4095 → exec (.ldB x) s = .next t →
      ∃ hi lo, u.fetchWord = .ok (wordOfBytes hi lo) ∧
        (∀ k, k ≤ 2 → u.pc.toNat = s.i.toNat + k → hi.toNat = (s.getV x).toNat / 10 ^ (2 - k) % 10) ∧
        (∀ k, k ≤ 2 → u.pc.toNat + 1 = s.i.toNat + k → lo.toNat = (s.getV x).toNat / 10 ^ (2 - k) % 10) ∧
        (u.pc.toNat < s.i.toNat ∨ s.i.toNat + 2 < u.pc.toNat → hi = s.byteAt u.pc.toNat) ∧
        (u.pc.toNat + 1 < s.i.toNat ∨ s.i.toNat + 2 < u.pc.toNat + 1 → lo = s.byteAt (u.pc.toNat + 1)))

/-! ## The stack (10_state.md) -/

/-- R33, R34: push appends the value as the new top entry and fails with 16 entries; pop removes and returns the top
entry and fails when there is none. -/
def Obligations.PushAndPopMoveTheTop : Prop :=
  ∀ (s : State) (w : Word),
    (s.stack.length < 16 → ∃ t, s.push w = .ok t ∧ t.stack = s.stack ++ [w] ∧ Frame [.stack] s t) ∧
    (s.stack.length = 16 → s.push w = .error .stackOverflow) ∧
    (∀ l, s.stack = l ++ [w] → ∃ t, s.pop = .ok (w, t) ∧ t.stack = l ∧ Frame [.stack] s t) ∧
    (s.stack = [] → s.pop = .error .stackUnderflow)

/-- R35: n values pushed are popped in reverse order, and the state is as before; the count is exact, so 16 fit and a
17th does not. -/
def Obligations.StackIsLastInFirstOut : Prop :=
  ∀ (ws : List Word) (s : State),
    (s.stack.length + ws.length ≤ 16 →
      ∃ t, State.pushMany ws s = .ok t ∧ t.stackLen = s.stackLen + ws.length ∧
        State.popMany ws.length t = .ok (ws.reverse, s)) ∧
    (s.stack.length ≤ 16 → 16 < s.stack.length + ws.length → State.pushMany ws s = .error .stackOverflow)
end

