-- ==== Sys2Proof/Laws/Decode.lean ====
section
/-! SUPPORT. The fields of each layout of an instruction word (30_encoding.md R92): what the decoder extracts from
what the encoder lays out. -/

namespace Sys2Proof

@[simp] theorem toFin_nib (x : Fin 16) : (nib x).toFin = x := rfl

/-! ## Layout op, nnn -/

@[simp] theorem fieldOp_nnn (o : BitVec 4) (a : Addr12) : fieldOp (o ++ a) = o := by
  ext j hj
  simp only [fieldOp, BitVec.getElem_extractLsb', BitVec.getLsbD_append]
  grind

@[simp] theorem fieldNNN_nnn (o : BitVec 4) (a : Addr12) : fieldNNN (o ++ a) = a := by
  ext j hj
  simp only [fieldNNN, BitVec.getElem_extractLsb', BitVec.getLsbD_append]
  grind

/-! ## Layout op, x, kk -/

@[simp] theorem fieldOp_xkk (o x : BitVec 4) (k : Byte) : fieldOp (o ++ x ++ k) = o := by
  ext j hj
  simp only [fieldOp, BitVec.getElem_extractLsb', BitVec.getLsbD_append]
  grind

@[simp] theorem fieldX_xkk (o x : BitVec 4) (k : Byte) : fieldX (o ++ x ++ k) = x.toFin := by
  have h : (o ++ x ++ k).extractLsb' 8 4 = x := by
    ext j hj
    simp only [BitVec.getElem_extractLsb', BitVec.getLsbD_append]
    grind
  exact congrArg BitVec.toFin h

@[simp] theorem fieldKK_xkk (o x : BitVec 4) (k : Byte) : fieldKK (o ++ x ++ k) = k := by
  ext j hj
  simp only [fieldKK, BitVec.getElem_extractLsb', BitVec.getLsbD_append]
  grind

/-! ## Layout op, x, y, n -/

@[simp] theorem fieldOp_xyn (o x y n : BitVec 4) : fieldOp (o ++ x ++ y ++ n) = o := by
  ext j hj
  simp only [fieldOp, BitVec.getElem_extractLsb', BitVec.getLsbD_append]
  grind

@[simp] theorem fieldX_xyn (o x y n : BitVec 4) : fieldX (o ++ x ++ y ++ n) = x.toFin := by
  have h : (o ++ x ++ y ++ n).extractLsb' 8 4 = x := by
    ext j hj
    simp only [BitVec.getElem_extractLsb', BitVec.getLsbD_append]
    grind
  exact congrArg BitVec.toFin h

@[simp] theorem fieldY_xyn (o x y n : BitVec 4) : fieldY (o ++ x ++ y ++ n) = y.toFin := by
  have h : (o ++ x ++ y ++ n).extractLsb' 4 4 = y := by
    ext j hj
    simp only [BitVec.getElem_extractLsb', BitVec.getLsbD_append]
    grind
  exact congrArg BitVec.toFin h

@[simp] theorem lowNibble_xyn (o x y n : BitVec 4) : (o ++ x ++ y ++ n).extractLsb' 0 4 = n := by
  ext j hj
  simp only [BitVec.getElem_extractLsb', BitVec.getLsbD_append]
  grind

@[simp] theorem fieldN_xyn (o x y n : BitVec 4) : fieldN (o ++ x ++ y ++ n) = n.toFin :=
  congrArg BitVec.toFin (lowNibble_xyn o x y n)

/-! ## A word from its fields, and from its bytes -/

/-- A word is its fields op, x, y, n. -/
theorem word_eq_xyn (w : Word) :
    w.extractLsb' 12 4 ++ w.extractLsb' 8 4 ++ w.extractLsb' 4 4 ++ w.extractLsb' 0 4 = w := by
  ext j hj
  simp only [← BitVec.getLsbD_eq_getElem]
  grind

/-- A word is its fields op, x, kk. -/
theorem word_eq_xkk (w : Word) : w.extractLsb' 12 4 ++ w.extractLsb' 8 4 ++ w.extractLsb' 0 8 = w := by
  ext j hj
  simp only [← BitVec.getLsbD_eq_getElem]
  grind

/-- A word is its fields op, nnn. -/
theorem word_eq_nnn (w : Word) : w.extractLsb' 12 4 ++ w.extractLsb' 0 12 = w := by
  ext j hj
  simp only [← BitVec.getLsbD_eq_getElem]
  grind

/-- The bytes of a word, in memory order, give the word back (20_memory.md R69). -/
@[simp] theorem wordOfBytes_bytesOfWord (w : Word) : wordOfBytes (bytesOfWord w).1 (bytesOfWord w).2 = w := by
  unfold wordOfBytes bytesOfWord
  ext j hj
  simp only [← BitVec.getLsbD_eq_getElem]
  grind

end Sys2Proof
end

