-- ==== Sys2Proof/Laws/State.lean ====
section
/-! SUPPORT. One lemma per field and per named update of State, so that no proof unfolds a record update; and what
the accessors read after an update. -/

namespace Sys2Proof.Machine.State

/-! ### setV -/

@[simp] theorem setV_cfg (s : State) (x : RegIdx) (b : Byte) : (s.setV x b).cfg = s.cfg := rfl
@[simp] theorem setV_v (s : State) (x : RegIdx) (b : Byte) : (s.setV x b).v = s.v.set x b := rfl
@[simp] theorem setV_i (s : State) (x : RegIdx) (b : Byte) : (s.setV x b).i = s.i := rfl
@[simp] theorem setV_pc (s : State) (x : RegIdx) (b : Byte) : (s.setV x b).pc = s.pc := rfl
@[simp] theorem setV_stack (s : State) (x : RegIdx) (b : Byte) : (s.setV x b).stack = s.stack := rfl
@[simp] theorem setV_dt (s : State) (x : RegIdx) (b : Byte) : (s.setV x b).dt = s.dt := rfl
@[simp] theorem setV_st (s : State) (x : RegIdx) (b : Byte) : (s.setV x b).st = s.st := rfl
@[simp] theorem setV_mem (s : State) (x : RegIdx) (b : Byte) : (s.setV x b).mem = s.mem := rfl
@[simp] theorem setV_fb (s : State) (x : RegIdx) (b : Byte) : (s.setV x b).fb = s.fb := rfl
@[simp] theorem setV_key (s : State) (x : RegIdx) (b : Byte) : (s.setV x b).key = s.key := rfl
@[simp] theorem setV_status (s : State) (x : RegIdx) (b : Byte) : (s.setV x b).status = s.status := rfl
@[simp] theorem setV_draws (s : State) (x : RegIdx) (b : Byte) : (s.setV x b).draws = s.draws := rfl

/-! ### setVF -/

@[simp] theorem setVF_cfg (s : State) (b : Byte) : (s.setVF b).cfg = s.cfg := rfl
@[simp] theorem setVF_v (s : State) (b : Byte) : (s.setVF b).v = s.v.set vf b := rfl
@[simp] theorem setVF_i (s : State) (b : Byte) : (s.setVF b).i = s.i := rfl
@[simp] theorem setVF_pc (s : State) (b : Byte) : (s.setVF b).pc = s.pc := rfl
@[simp] theorem setVF_stack (s : State) (b : Byte) : (s.setVF b).stack = s.stack := rfl
@[simp] theorem setVF_dt (s : State) (b : Byte) : (s.setVF b).dt = s.dt := rfl
@[simp] theorem setVF_st (s : State) (b : Byte) : (s.setVF b).st = s.st := rfl
@[simp] theorem setVF_mem (s : State) (b : Byte) : (s.setVF b).mem = s.mem := rfl
@[simp] theorem setVF_fb (s : State) (b : Byte) : (s.setVF b).fb = s.fb := rfl
@[simp] theorem setVF_key (s : State) (b : Byte) : (s.setVF b).key = s.key := rfl
@[simp] theorem setVF_status (s : State) (b : Byte) : (s.setVF b).status = s.status := rfl
@[simp] theorem setVF_draws (s : State) (b : Byte) : (s.setVF b).draws = s.draws := rfl

/-! ### setResult -/

@[simp] theorem setResult_cfg (s : State) (x : RegIdx) (r f : Byte) : (s.setResult x r f).cfg = s.cfg := rfl
@[simp] theorem setResult_v (s : State) (x : RegIdx) (r f : Byte) : (s.setResult x r f).v = (s.v.set x r).set vf f := rfl
@[simp] theorem setResult_i (s : State) (x : RegIdx) (r f : Byte) : (s.setResult x r f).i = s.i := rfl
@[simp] theorem setResult_pc (s : State) (x : RegIdx) (r f : Byte) : (s.setResult x r f).pc = s.pc := rfl
@[simp] theorem setResult_stack (s : State) (x : RegIdx) (r f : Byte) : (s.setResult x r f).stack = s.stack := rfl
@[simp] theorem setResult_dt (s : State) (x : RegIdx) (r f : Byte) : (s.setResult x r f).dt = s.dt := rfl
@[simp] theorem setResult_st (s : State) (x : RegIdx) (r f : Byte) : (s.setResult x r f).st = s.st := rfl
@[simp] theorem setResult_mem (s : State) (x : RegIdx) (r f : Byte) : (s.setResult x r f).mem = s.mem := rfl
@[simp] theorem setResult_fb (s : State) (x : RegIdx) (r f : Byte) : (s.setResult x r f).fb = s.fb := rfl
@[simp] theorem setResult_key (s : State) (x : RegIdx) (r f : Byte) : (s.setResult x r f).key = s.key := rfl
@[simp] theorem setResult_status (s : State) (x : RegIdx) (r f : Byte) : (s.setResult x r f).status = s.status := rfl
@[simp] theorem setResult_draws (s : State) (x : RegIdx) (r f : Byte) : (s.setResult x r f).draws = s.draws := rfl

/-! ### setRegs -/

@[simp] theorem setRegs_cfg (s : State) (bs : List Byte) : (s.setRegs bs).cfg = s.cfg := rfl
@[simp] theorem setRegs_v (s : State) (bs : List Byte) : (s.setRegs bs).v = Vector.ofFn fun k : Fin 16 => bs.getD k.val (s.getV k) := rfl
@[simp] theorem setRegs_i (s : State) (bs : List Byte) : (s.setRegs bs).i = s.i := rfl
@[simp] theorem setRegs_pc (s : State) (bs : List Byte) : (s.setRegs bs).pc = s.pc := rfl
@[simp] theorem setRegs_stack (s : State) (bs : List Byte) : (s.setRegs bs).stack = s.stack := rfl
@[simp] theorem setRegs_dt (s : State) (bs : List Byte) : (s.setRegs bs).dt = s.dt := rfl
@[simp] theorem setRegs_st (s : State) (bs : List Byte) : (s.setRegs bs).st = s.st := rfl
@[simp] theorem setRegs_mem (s : State) (bs : List Byte) : (s.setRegs bs).mem = s.mem := rfl
@[simp] theorem setRegs_fb (s : State) (bs : List Byte) : (s.setRegs bs).fb = s.fb := rfl
@[simp] theorem setRegs_key (s : State) (bs : List Byte) : (s.setRegs bs).key = s.key := rfl
@[simp] theorem setRegs_status (s : State) (bs : List Byte) : (s.setRegs bs).status = s.status := rfl
@[simp] theorem setRegs_draws (s : State) (bs : List Byte) : (s.setRegs bs).draws = s.draws := rfl

/-! ### setI -/

@[simp] theorem setI_cfg (s : State) (w : Word) : (s.setI w).cfg = s.cfg := rfl
@[simp] theorem setI_v (s : State) (w : Word) : (s.setI w).v = s.v := rfl
@[simp] theorem setI_i (s : State) (w : Word) : (s.setI w).i = w := rfl
@[simp] theorem setI_pc (s : State) (w : Word) : (s.setI w).pc = s.pc := rfl
@[simp] theorem setI_stack (s : State) (w : Word) : (s.setI w).stack = s.stack := rfl
@[simp] theorem setI_dt (s : State) (w : Word) : (s.setI w).dt = s.dt := rfl
@[simp] theorem setI_st (s : State) (w : Word) : (s.setI w).st = s.st := rfl
@[simp] theorem setI_mem (s : State) (w : Word) : (s.setI w).mem = s.mem := rfl
@[simp] theorem setI_fb (s : State) (w : Word) : (s.setI w).fb = s.fb := rfl
@[simp] theorem setI_key (s : State) (w : Word) : (s.setI w).key = s.key := rfl
@[simp] theorem setI_status (s : State) (w : Word) : (s.setI w).status = s.status := rfl
@[simp] theorem setI_draws (s : State) (w : Word) : (s.setI w).draws = s.draws := rfl

/-! ### setPc -/

@[simp] theorem setPc_cfg (s : State) (w : Word) : (s.setPc w).cfg = s.cfg := rfl
@[simp] theorem setPc_v (s : State) (w : Word) : (s.setPc w).v = s.v := rfl
@[simp] theorem setPc_i (s : State) (w : Word) : (s.setPc w).i = s.i := rfl
@[simp] theorem setPc_pc (s : State) (w : Word) : (s.setPc w).pc = w := rfl
@[simp] theorem setPc_stack (s : State) (w : Word) : (s.setPc w).stack = s.stack := rfl
@[simp] theorem setPc_dt (s : State) (w : Word) : (s.setPc w).dt = s.dt := rfl
@[simp] theorem setPc_st (s : State) (w : Word) : (s.setPc w).st = s.st := rfl
@[simp] theorem setPc_mem (s : State) (w : Word) : (s.setPc w).mem = s.mem := rfl
@[simp] theorem setPc_fb (s : State) (w : Word) : (s.setPc w).fb = s.fb := rfl
@[simp] theorem setPc_key (s : State) (w : Word) : (s.setPc w).key = s.key := rfl
@[simp] theorem setPc_status (s : State) (w : Word) : (s.setPc w).status = s.status := rfl
@[simp] theorem setPc_draws (s : State) (w : Word) : (s.setPc w).draws = s.draws := rfl

/-! ### advance -/

@[simp] theorem advance_cfg (s : State) : (s.advance).cfg = s.cfg := rfl
@[simp] theorem advance_v (s : State) : (s.advance).v = s.v := rfl
@[simp] theorem advance_i (s : State) : (s.advance).i = s.i := rfl
@[simp] theorem advance_pc (s : State) : (s.advance).pc = s.pc + 2 := rfl
@[simp] theorem advance_stack (s : State) : (s.advance).stack = s.stack := rfl
@[simp] theorem advance_dt (s : State) : (s.advance).dt = s.dt := rfl
@[simp] theorem advance_st (s : State) : (s.advance).st = s.st := rfl
@[simp] theorem advance_mem (s : State) : (s.advance).mem = s.mem := rfl
@[simp] theorem advance_fb (s : State) : (s.advance).fb = s.fb := rfl
@[simp] theorem advance_key (s : State) : (s.advance).key = s.key := rfl
@[simp] theorem advance_status (s : State) : (s.advance).status = s.status := rfl
@[simp] theorem advance_draws (s : State) : (s.advance).draws = s.draws := rfl

/-! ### skipIf -/

@[simp] theorem skipIf_cfg (s : State) (c : Bool) : (s.skipIf c).cfg = s.cfg := rfl
@[simp] theorem skipIf_v (s : State) (c : Bool) : (s.skipIf c).v = s.v := rfl
@[simp] theorem skipIf_i (s : State) (c : Bool) : (s.skipIf c).i = s.i := rfl
@[simp] theorem skipIf_pc (s : State) (c : Bool) : (s.skipIf c).pc = if c then s.pc + 4 else s.pc + 2 := rfl
@[simp] theorem skipIf_stack (s : State) (c : Bool) : (s.skipIf c).stack = s.stack := rfl
@[simp] theorem skipIf_dt (s : State) (c : Bool) : (s.skipIf c).dt = s.dt := rfl
@[simp] theorem skipIf_st (s : State) (c : Bool) : (s.skipIf c).st = s.st := rfl
@[simp] theorem skipIf_mem (s : State) (c : Bool) : (s.skipIf c).mem = s.mem := rfl
@[simp] theorem skipIf_fb (s : State) (c : Bool) : (s.skipIf c).fb = s.fb := rfl
@[simp] theorem skipIf_key (s : State) (c : Bool) : (s.skipIf c).key = s.key := rfl
@[simp] theorem skipIf_status (s : State) (c : Bool) : (s.skipIf c).status = s.status := rfl
@[simp] theorem skipIf_draws (s : State) (c : Bool) : (s.skipIf c).draws = s.draws := rfl

/-! ### setDT -/

@[simp] theorem setDT_cfg (s : State) (b : Byte) : (s.setDT b).cfg = s.cfg := rfl
@[simp] theorem setDT_v (s : State) (b : Byte) : (s.setDT b).v = s.v := rfl
@[simp] theorem setDT_i (s : State) (b : Byte) : (s.setDT b).i = s.i := rfl
@[simp] theorem setDT_pc (s : State) (b : Byte) : (s.setDT b).pc = s.pc := rfl
@[simp] theorem setDT_stack (s : State) (b : Byte) : (s.setDT b).stack = s.stack := rfl
@[simp] theorem setDT_dt (s : State) (b : Byte) : (s.setDT b).dt = b := rfl
@[simp] theorem setDT_st (s : State) (b : Byte) : (s.setDT b).st = s.st := rfl
@[simp] theorem setDT_mem (s : State) (b : Byte) : (s.setDT b).mem = s.mem := rfl
@[simp] theorem setDT_fb (s : State) (b : Byte) : (s.setDT b).fb = s.fb := rfl
@[simp] theorem setDT_key (s : State) (b : Byte) : (s.setDT b).key = s.key := rfl
@[simp] theorem setDT_status (s : State) (b : Byte) : (s.setDT b).status = s.status := rfl
@[simp] theorem setDT_draws (s : State) (b : Byte) : (s.setDT b).draws = s.draws := rfl

/-! ### setST -/

@[simp] theorem setST_cfg (s : State) (b : Byte) : (s.setST b).cfg = s.cfg := rfl
@[simp] theorem setST_v (s : State) (b : Byte) : (s.setST b).v = s.v := rfl
@[simp] theorem setST_i (s : State) (b : Byte) : (s.setST b).i = s.i := rfl
@[simp] theorem setST_pc (s : State) (b : Byte) : (s.setST b).pc = s.pc := rfl
@[simp] theorem setST_stack (s : State) (b : Byte) : (s.setST b).stack = s.stack := rfl
@[simp] theorem setST_dt (s : State) (b : Byte) : (s.setST b).dt = s.dt := rfl
@[simp] theorem setST_st (s : State) (b : Byte) : (s.setST b).st = b := rfl
@[simp] theorem setST_mem (s : State) (b : Byte) : (s.setST b).mem = s.mem := rfl
@[simp] theorem setST_fb (s : State) (b : Byte) : (s.setST b).fb = s.fb := rfl
@[simp] theorem setST_key (s : State) (b : Byte) : (s.setST b).key = s.key := rfl
@[simp] theorem setST_status (s : State) (b : Byte) : (s.setST b).status = s.status := rfl
@[simp] theorem setST_draws (s : State) (b : Byte) : (s.setST b).draws = s.draws := rfl

/-! ### setStack -/

@[simp] theorem setStack_cfg (s : State) (l : List Word) : (s.setStack l).cfg = s.cfg := rfl
@[simp] theorem setStack_v (s : State) (l : List Word) : (s.setStack l).v = s.v := rfl
@[simp] theorem setStack_i (s : State) (l : List Word) : (s.setStack l).i = s.i := rfl
@[simp] theorem setStack_pc (s : State) (l : List Word) : (s.setStack l).pc = s.pc := rfl
@[simp] theorem setStack_stack (s : State) (l : List Word) : (s.setStack l).stack = l := rfl
@[simp] theorem setStack_dt (s : State) (l : List Word) : (s.setStack l).dt = s.dt := rfl
@[simp] theorem setStack_st (s : State) (l : List Word) : (s.setStack l).st = s.st := rfl
@[simp] theorem setStack_mem (s : State) (l : List Word) : (s.setStack l).mem = s.mem := rfl
@[simp] theorem setStack_fb (s : State) (l : List Word) : (s.setStack l).fb = s.fb := rfl
@[simp] theorem setStack_key (s : State) (l : List Word) : (s.setStack l).key = s.key := rfl
@[simp] theorem setStack_status (s : State) (l : List Word) : (s.setStack l).status = s.status := rfl
@[simp] theorem setStack_draws (s : State) (l : List Word) : (s.setStack l).draws = s.draws := rfl

/-! ### setFb -/

@[simp] theorem setFb_cfg (s : State) (f : FrameBuf) : (s.setFb f).cfg = s.cfg := rfl
@[simp] theorem setFb_v (s : State) (f : FrameBuf) : (s.setFb f).v = s.v := rfl
@[simp] theorem setFb_i (s : State) (f : FrameBuf) : (s.setFb f).i = s.i := rfl
@[simp] theorem setFb_pc (s : State) (f : FrameBuf) : (s.setFb f).pc = s.pc := rfl
@[simp] theorem setFb_stack (s : State) (f : FrameBuf) : (s.setFb f).stack = s.stack := rfl
@[simp] theorem setFb_dt (s : State) (f : FrameBuf) : (s.setFb f).dt = s.dt := rfl
@[simp] theorem setFb_st (s : State) (f : FrameBuf) : (s.setFb f).st = s.st := rfl
@[simp] theorem setFb_mem (s : State) (f : FrameBuf) : (s.setFb f).mem = s.mem := rfl
@[simp] theorem setFb_fb (s : State) (f : FrameBuf) : (s.setFb f).fb = f := rfl
@[simp] theorem setFb_key (s : State) (f : FrameBuf) : (s.setFb f).key = s.key := rfl
@[simp] theorem setFb_status (s : State) (f : FrameBuf) : (s.setFb f).status = s.status := rfl
@[simp] theorem setFb_draws (s : State) (f : FrameBuf) : (s.setFb f).draws = s.draws := rfl

/-! ### setStatus -/

@[simp] theorem setStatus_cfg (s : State) (x : Status) : (s.setStatus x).cfg = s.cfg := rfl
@[simp] theorem setStatus_v (s : State) (x : Status) : (s.setStatus x).v = s.v := rfl
@[simp] theorem setStatus_i (s : State) (x : Status) : (s.setStatus x).i = s.i := rfl
@[simp] theorem setStatus_pc (s : State) (x : Status) : (s.setStatus x).pc = s.pc := rfl
@[simp] theorem setStatus_stack (s : State) (x : Status) : (s.setStatus x).stack = s.stack := rfl
@[simp] theorem setStatus_dt (s : State) (x : Status) : (s.setStatus x).dt = s.dt := rfl
@[simp] theorem setStatus_st (s : State) (x : Status) : (s.setStatus x).st = s.st := rfl
@[simp] theorem setStatus_mem (s : State) (x : Status) : (s.setStatus x).mem = s.mem := rfl
@[simp] theorem setStatus_fb (s : State) (x : Status) : (s.setStatus x).fb = s.fb := rfl
@[simp] theorem setStatus_key (s : State) (x : Status) : (s.setStatus x).key = s.key := rfl
@[simp] theorem setStatus_status (s : State) (x : Status) : (s.setStatus x).status = x := rfl
@[simp] theorem setStatus_draws (s : State) (x : Status) : (s.setStatus x).draws = s.draws := rfl

/-! ### putBytes -/

@[simp] theorem putBytes_cfg (s : State) (a : Nat) (bs : List Byte) : (s.putBytes a bs).cfg = s.cfg := rfl
@[simp] theorem putBytes_v (s : State) (a : Nat) (bs : List Byte) : (s.putBytes a bs).v = s.v := rfl
@[simp] theorem putBytes_i (s : State) (a : Nat) (bs : List Byte) : (s.putBytes a bs).i = s.i := rfl
@[simp] theorem putBytes_pc (s : State) (a : Nat) (bs : List Byte) : (s.putBytes a bs).pc = s.pc := rfl
@[simp] theorem putBytes_stack (s : State) (a : Nat) (bs : List Byte) : (s.putBytes a bs).stack = s.stack := rfl
@[simp] theorem putBytes_dt (s : State) (a : Nat) (bs : List Byte) : (s.putBytes a bs).dt = s.dt := rfl
@[simp] theorem putBytes_st (s : State) (a : Nat) (bs : List Byte) : (s.putBytes a bs).st = s.st := rfl
@[simp] theorem putBytes_mem (s : State) (a : Nat) (bs : List Byte) : (s.putBytes a bs).mem = Memory.writeBytes (resetByte s.cfg) s.mem a bs := rfl
@[simp] theorem putBytes_fb (s : State) (a : Nat) (bs : List Byte) : (s.putBytes a bs).fb = s.fb := rfl
@[simp] theorem putBytes_key (s : State) (a : Nat) (bs : List Byte) : (s.putBytes a bs).key = s.key := rfl
@[simp] theorem putBytes_status (s : State) (a : Nat) (bs : List Byte) : (s.putBytes a bs).status = s.status := rfl
@[simp] theorem putBytes_draws (s : State) (a : Nat) (bs : List Byte) : (s.putBytes a bs).draws = s.draws := rfl

/-! ### nextDraw -/

@[simp] theorem nextDraw_cfg (s : State) : (s.nextDraw).cfg = s.cfg := rfl
@[simp] theorem nextDraw_v (s : State) : (s.nextDraw).v = s.v := rfl
@[simp] theorem nextDraw_i (s : State) : (s.nextDraw).i = s.i := rfl
@[simp] theorem nextDraw_pc (s : State) : (s.nextDraw).pc = s.pc := rfl
@[simp] theorem nextDraw_stack (s : State) : (s.nextDraw).stack = s.stack := rfl
@[simp] theorem nextDraw_dt (s : State) : (s.nextDraw).dt = s.dt := rfl
@[simp] theorem nextDraw_st (s : State) : (s.nextDraw).st = s.st := rfl
@[simp] theorem nextDraw_mem (s : State) : (s.nextDraw).mem = s.mem := rfl
@[simp] theorem nextDraw_fb (s : State) : (s.nextDraw).fb = s.fb := rfl
@[simp] theorem nextDraw_key (s : State) : (s.nextDraw).key = s.key := rfl
@[simp] theorem nextDraw_status (s : State) : (s.nextDraw).status = s.status := rfl
@[simp] theorem nextDraw_draws (s : State) : (s.nextDraw).draws = s.draws + 1 := rfl

/-! ### setKeys -/

@[simp] theorem setKeys_cfg (s : State) (k : Vector Bool 16) : (s.setKeys k).cfg = s.cfg := rfl
@[simp] theorem setKeys_v (s : State) (k : Vector Bool 16) : (s.setKeys k).v = s.v := rfl
@[simp] theorem setKeys_i (s : State) (k : Vector Bool 16) : (s.setKeys k).i = s.i := rfl
@[simp] theorem setKeys_pc (s : State) (k : Vector Bool 16) : (s.setKeys k).pc = s.pc := rfl
@[simp] theorem setKeys_stack (s : State) (k : Vector Bool 16) : (s.setKeys k).stack = s.stack := rfl
@[simp] theorem setKeys_dt (s : State) (k : Vector Bool 16) : (s.setKeys k).dt = s.dt := rfl
@[simp] theorem setKeys_st (s : State) (k : Vector Bool 16) : (s.setKeys k).st = s.st := rfl
@[simp] theorem setKeys_mem (s : State) (k : Vector Bool 16) : (s.setKeys k).mem = s.mem := rfl
@[simp] theorem setKeys_fb (s : State) (k : Vector Bool 16) : (s.setKeys k).fb = s.fb := rfl
@[simp] theorem setKeys_key (s : State) (k : Vector Bool 16) : (s.setKeys k).key = k := rfl
@[simp] theorem setKeys_status (s : State) (k : Vector Bool 16) : (s.setKeys k).status = s.status := rfl
@[simp] theorem setKeys_draws (s : State) (k : Vector Bool 16) : (s.setKeys k).draws = s.draws := rfl

/-! ### pressKey -/

@[simp] theorem pressKey_cfg (s : State) (k : KeyIdx) : (s.pressKey k).cfg = s.cfg := rfl
@[simp] theorem pressKey_v (s : State) (k : KeyIdx) : (s.pressKey k).v = s.v := rfl
@[simp] theorem pressKey_i (s : State) (k : KeyIdx) : (s.pressKey k).i = s.i := rfl
@[simp] theorem pressKey_pc (s : State) (k : KeyIdx) : (s.pressKey k).pc = s.pc := rfl
@[simp] theorem pressKey_stack (s : State) (k : KeyIdx) : (s.pressKey k).stack = s.stack := rfl
@[simp] theorem pressKey_dt (s : State) (k : KeyIdx) : (s.pressKey k).dt = s.dt := rfl
@[simp] theorem pressKey_st (s : State) (k : KeyIdx) : (s.pressKey k).st = s.st := rfl
@[simp] theorem pressKey_mem (s : State) (k : KeyIdx) : (s.pressKey k).mem = s.mem := rfl
@[simp] theorem pressKey_fb (s : State) (k : KeyIdx) : (s.pressKey k).fb = s.fb := rfl
@[simp] theorem pressKey_key (s : State) (k : KeyIdx) : (s.pressKey k).key = s.key.set k true := rfl
@[simp] theorem pressKey_status (s : State) (k : KeyIdx) : (s.pressKey k).status = s.status := rfl
@[simp] theorem pressKey_draws (s : State) (k : KeyIdx) : (s.pressKey k).draws = s.draws := rfl

/-! ### What the accessors read after an update -/

theorem getV_setV (s : State) (x k : RegIdx) (b : Byte) : (s.setV x b).getV k = if k = x then b else s.getV k := by
  by_cases h : k = x
  · subst h
    simp [getV]
  · have hv : (x : Nat) ≠ k := fun e => h (Fin.ext e.symm)
    simp [getV, h, hv]

@[simp] theorem getV_setV_same (s : State) (x : RegIdx) (b : Byte) : (s.setV x b).getV x = b := by
  simp [getV_setV]

theorem getV_setV_ne (s : State) {x k : RegIdx} (b : Byte) (h : k ≠ x) : (s.setV x b).getV k = s.getV k := by
  simp [getV_setV, h]

theorem getV_setVF (s : State) (k : RegIdx) (b : Byte) : (s.setVF b).getV k = if k = vf then b else s.getV k :=
  getV_setV s vf k b

theorem getV_setResult (s : State) (x k : RegIdx) (r f : Byte) :
    (s.setResult x r f).getV k = if k = vf then f else if k = x then r else s.getV k := by
  rw [setResult, getV_setVF, getV_setV]

theorem getV_setRegs (s : State) (bs : List Byte) (k : RegIdx) :
    (s.setRegs bs).getV k = bs.getD k.val (s.getV k) := by
  simp [getV, setRegs]

@[simp] theorem getV_setI (s : State) (w : Word) (j : RegIdx) : (s.setI w).getV j = s.getV j := rfl
@[simp] theorem getV_setPc (s : State) (w : Word) (j : RegIdx) : (s.setPc w).getV j = s.getV j := rfl
@[simp] theorem getV_advance (s : State) (j : RegIdx) : (s.advance).getV j = s.getV j := rfl
@[simp] theorem getV_skipIf (s : State) (c : Bool) (j : RegIdx) : (s.skipIf c).getV j = s.getV j := rfl
@[simp] theorem getV_setDT (s : State) (b : Byte) (j : RegIdx) : (s.setDT b).getV j = s.getV j := rfl
@[simp] theorem getV_setST (s : State) (b : Byte) (j : RegIdx) : (s.setST b).getV j = s.getV j := rfl
@[simp] theorem getV_setStack (s : State) (l : List Word) (j : RegIdx) : (s.setStack l).getV j = s.getV j := rfl
@[simp] theorem getV_setFb (s : State) (f : FrameBuf) (j : RegIdx) : (s.setFb f).getV j = s.getV j := rfl
@[simp] theorem getV_setStatus (s : State) (x : Status) (j : RegIdx) : (s.setStatus x).getV j = s.getV j := rfl
@[simp] theorem getV_putBytes (s : State) (a : Nat) (bs : List Byte) (j : RegIdx) : (s.putBytes a bs).getV j = s.getV j := rfl
@[simp] theorem getV_nextDraw (s : State) (j : RegIdx) : (s.nextDraw).getV j = s.getV j := rfl
@[simp] theorem getV_setKeys (s : State) (k : Vector Bool 16) (j : RegIdx) : (s.setKeys k).getV j = s.getV j := rfl
@[simp] theorem getV_pressKey (s : State) (k : KeyIdx) (j : RegIdx) : (s.pressKey k).getV j = s.getV j := rfl

@[simp] theorem byteAt_setV (s : State) (x : RegIdx) (b : Byte) (n : Nat) : (s.setV x b).byteAt n = s.byteAt n := rfl
@[simp] theorem byteAt_setVF (s : State) (b : Byte) (n : Nat) : (s.setVF b).byteAt n = s.byteAt n := rfl
@[simp] theorem byteAt_setResult (s : State) (x : RegIdx) (r f : Byte) (n : Nat) : (s.setResult x r f).byteAt n = s.byteAt n := rfl
@[simp] theorem byteAt_setRegs (s : State) (bs : List Byte) (n : Nat) : (s.setRegs bs).byteAt n = s.byteAt n := rfl
@[simp] theorem byteAt_setI (s : State) (w : Word) (n : Nat) : (s.setI w).byteAt n = s.byteAt n := rfl
@[simp] theorem byteAt_setPc (s : State) (w : Word) (n : Nat) : (s.setPc w).byteAt n = s.byteAt n := rfl
@[simp] theorem byteAt_advance (s : State) (n : Nat) : (s.advance).byteAt n = s.byteAt n := rfl
@[simp] theorem byteAt_skipIf (s : State) (c : Bool) (n : Nat) : (s.skipIf c).byteAt n = s.byteAt n := rfl
@[simp] theorem byteAt_setDT (s : State) (b : Byte) (n : Nat) : (s.setDT b).byteAt n = s.byteAt n := rfl
@[simp] theorem byteAt_setST (s : State) (b : Byte) (n : Nat) : (s.setST b).byteAt n = s.byteAt n := rfl
@[simp] theorem byteAt_setStack (s : State) (l : List Word) (n : Nat) : (s.setStack l).byteAt n = s.byteAt n := rfl
@[simp] theorem byteAt_setFb (s : State) (f : FrameBuf) (n : Nat) : (s.setFb f).byteAt n = s.byteAt n := rfl
@[simp] theorem byteAt_setStatus (s : State) (x : Status) (n : Nat) : (s.setStatus x).byteAt n = s.byteAt n := rfl
@[simp] theorem byteAt_nextDraw (s : State) (n : Nat) : (s.nextDraw).byteAt n = s.byteAt n := rfl
@[simp] theorem byteAt_setKeys (s : State) (k : Vector Bool 16) (n : Nat) : (s.setKeys k).byteAt n = s.byteAt n := rfl
@[simp] theorem byteAt_pressKey (s : State) (k : KeyIdx) (n : Nat) : (s.pressKey k).byteAt n = s.byteAt n := rfl

@[simp] theorem keyDownAt_setV (s : State) (x : RegIdx) (b : Byte) (j : KeyIdx) : (s.setV x b).keyDownAt j = s.keyDownAt j := rfl
@[simp] theorem keyDownAt_setVF (s : State) (b : Byte) (j : KeyIdx) : (s.setVF b).keyDownAt j = s.keyDownAt j := rfl
@[simp] theorem keyDownAt_setResult (s : State) (x : RegIdx) (r f : Byte) (j : KeyIdx) : (s.setResult x r f).keyDownAt j = s.keyDownAt j := rfl
@[simp] theorem keyDownAt_setRegs (s : State) (bs : List Byte) (j : KeyIdx) : (s.setRegs bs).keyDownAt j = s.keyDownAt j := rfl
@[simp] theorem keyDownAt_setI (s : State) (w : Word) (j : KeyIdx) : (s.setI w).keyDownAt j = s.keyDownAt j := rfl
@[simp] theorem keyDownAt_setPc (s : State) (w : Word) (j : KeyIdx) : (s.setPc w).keyDownAt j = s.keyDownAt j := rfl
@[simp] theorem keyDownAt_advance (s : State) (j : KeyIdx) : (s.advance).keyDownAt j = s.keyDownAt j := rfl
@[simp] theorem keyDownAt_skipIf (s : State) (c : Bool) (j : KeyIdx) : (s.skipIf c).keyDownAt j = s.keyDownAt j := rfl
@[simp] theorem keyDownAt_setDT (s : State) (b : Byte) (j : KeyIdx) : (s.setDT b).keyDownAt j = s.keyDownAt j := rfl
@[simp] theorem keyDownAt_setST (s : State) (b : Byte) (j : KeyIdx) : (s.setST b).keyDownAt j = s.keyDownAt j := rfl
@[simp] theorem keyDownAt_setStack (s : State) (l : List Word) (j : KeyIdx) : (s.setStack l).keyDownAt j = s.keyDownAt j := rfl
@[simp] theorem keyDownAt_setFb (s : State) (f : FrameBuf) (j : KeyIdx) : (s.setFb f).keyDownAt j = s.keyDownAt j := rfl
@[simp] theorem keyDownAt_setStatus (s : State) (x : Status) (j : KeyIdx) : (s.setStatus x).keyDownAt j = s.keyDownAt j := rfl
@[simp] theorem keyDownAt_putBytes (s : State) (a : Nat) (bs : List Byte) (j : KeyIdx) : (s.putBytes a bs).keyDownAt j = s.keyDownAt j := rfl
@[simp] theorem keyDownAt_nextDraw (s : State) (j : KeyIdx) : (s.nextDraw).keyDownAt j = s.keyDownAt j := rfl

theorem keyDownAt_pressKey (s : State) (k j : KeyIdx) :
    (s.pressKey k).keyDownAt j = if j = k then true else s.keyDownAt j := by
  by_cases h : j = k
  · subst h
    simp [keyDownAt, pressKey]
  · have hv : (k : Nat) ≠ j := fun e => h (Fin.ext e.symm)
    simp [keyDownAt, pressKey, h, hv]

/-- Two states with the same registers, read one by one, have the same register file. -/
theorem v_ext {s t : State} (h : ∀ k, t.getV k = s.getV k) : t.v = s.v := by
  apply Vector.ext
  intro k hk
  exact h ⟨k, hk⟩

/-! ### The results of the bitwise family -/

theorem setLogic_eq (s : State) (x : RegIdx) (r : Byte) :
    s.setLogic x r = if s.cfg.logicVfReset then s.setResult x r 0 else s.setV x r := rfl

theorem getV_setLogic (s : State) (x k : RegIdx) (r : Byte) :
    (s.setLogic x r).getV k =
      if s.cfg.logicVfReset ∧ k = vf then 0 else if k = x then r else s.getV k := by
  rw [setLogic_eq]
  cases s.cfg.logicVfReset
  · simp [getV_setV]
  · simp [getV_setResult]

end Sys2Proof.Machine.State
end

