-- ==== Sys2Proof/Laws/Display.lean ====
section
/-! SUPPORT. The laws of the display: a framebuffer is its pixels, and a toggle changes one of them. -/

namespace Sys2Proof.Machine

namespace FrameBuf

/-- Two framebuffers with the same pixels are equal. -/
theorem ext_pixel {f g : FrameBuf} (h : ∀ c r, pixel f c r = pixel g c r) : f = g := by
  apply Vector.ext
  intro r hr
  apply BitVec.eq_of_getLsbD_eq
  intro c hc
  exact h ⟨c, hc⟩ ⟨r, hr⟩

/-- A toggle flips its own pixel and no other. -/
theorem pixel_toggle (f : FrameBuf) (c c' : Fin 64) (r r' : Fin 32) :
    pixel (toggle f c r) c' r' = (pixel f c' r' ^^ decide (c' = c ∧ r' = r)) := by
  by_cases hr : r' = r
  · subst hr
    simp [pixel, toggle, Fin.ext_iff]
  · have hv : (r : Nat) ≠ r' := fun e => hr (Fin.ext e.symm)
    simp [pixel, toggle, hr, hv]

@[simp] theorem pixel_blank (c : Fin 64) (r : Fin 32) : pixel blank c r = false := by
  simp [pixel, blank]

end FrameBuf

/-- A sprite of at most 16 rows is built (10_state.md R42). -/
theorem Sprite.new_ok {rows : List Byte} {n : Nat} (h : n ≤ 16) :
    ∃ p : Sprite, Sprite.new rows n = .ok p ∧ p.rows = rows.take n := by
  simp [Sprite.new, h]

/-- A sprite of more than 16 rows is refused (10_state.md R42). -/
theorem Sprite.new_error {rows : List Byte} {n : Nat} (h : 16 < n) :
    Sprite.new rows n = .error .spriteTooTall := by
  simp [Sprite.new, Nat.not_le.mpr h]

/-- Drawing a sprite changes the framebuffer and VF, as `FrameBuf.draw` says, and nothing else. -/
theorem State.drawSprite_eq (s : State) (cx cy : Byte) (p : Sprite) :
    s.drawSprite cx cy p = (s.setFb (FrameBuf.draw s.fb cx cy p).1).setVF (b2u (FrameBuf.draw s.fb cx cy p).2) :=
  rfl

end Sys2Proof.Machine
end

