-- ==== Sys2Proof/Laws/Memory.lean ====
section
/-! SUPPORT. The laws of memory: read after write, and every operation keeps the canonical form. -/

namespace Sys2Proof.Machine.Memory

variable (d : Nat → Byte)

@[simp] theorem read_nil (a : Nat) : Memory.read d [] a = d a := rfl

@[simp] theorem read_cons (b : Nat) (x : Byte) (m : Memory) (a : Nat) :
    Memory.read d ((b, x) :: m) a = if b = a then x else Memory.read d m a := rfl

/-- A write leaves the bytes of every other address alone, in any list. -/
theorem read_write_ne (m : Memory) {a k : Nat} (v : Byte) (h : k ≠ a) :
    Memory.read d (Memory.write d m a v) k = Memory.read d m k := by
  induction m with
  | nil =>
    unfold Memory.write
    split <;> simp [Ne.symm h]
  | cons e m ih =>
    obtain ⟨b, x⟩ := e
    unfold Memory.write
    split
    · split <;> simp [Ne.symm h]
    · split
      · rename_i hab
        subst hab
        split <;> simp [Ne.symm h]
      · simp [ih]

/-- The canonical form from an address on is the canonical form from any earlier one on. -/
theorem wfFrom_mono {m : Memory} {lo lo' : Nat} (h : Memory.wfFrom d lo m = true) (hl : lo' ≤ lo) :
    Memory.wfFrom d lo' m = true := by
  cases m with
  | nil => rfl
  | cons e m =>
    obtain ⟨b, x⟩ := e
    simp only [Memory.wfFrom, Bool.and_eq_true, decide_eq_true_eq] at h ⊢
    exact ⟨⟨⟨by omega, h.1.1.2⟩, h.1.2⟩, h.2⟩

/-- In a canonical memory an address below the first listed one is not listed. -/
theorem read_of_lt {m : Memory} {lo a : Nat} (h : Memory.wfFrom d lo m = true) (ha : a < lo) :
    Memory.read d m a = d a := by
  induction m generalizing lo with
  | nil => rfl
  | cons e m ih =>
    obtain ⟨b, x⟩ := e
    simp only [Memory.wfFrom, Bool.and_eq_true, decide_eq_true_eq] at h
    rw [read_cons, if_neg (by omega)]
    exact ih h.2 (by omega)

/-- A read after a write to the same address gives the value written. -/
theorem read_write_same {m : Memory} {lo : Nat} (h : Memory.wfFrom d lo m = true) (a : Nat) (v : Byte) :
    Memory.read d (Memory.write d m a v) a = v := by
  induction m generalizing lo with
  | nil =>
    unfold Memory.write
    split <;> simp_all
  | cons e m ih =>
    obtain ⟨b, x⟩ := e
    have hw := h
    simp only [Memory.wfFrom, Bool.and_eq_true, decide_eq_true_eq] at h
    unfold Memory.write
    split
    · rename_i hab
      split
      · rename_i hv
        rw [read_cons, if_neg (by omega), read_of_lt d h.2 (by omega), hv]
      · simp
    · split
      · rename_i hab
        subst hab
        split
        · rename_i hv
          rw [read_of_lt d h.2 (by omega), hv]
        · simp
      · rename_i hab hne
        rw [read_cons, if_neg (Ne.symm hne)]
        exact ih h.2

/-- A write at an address of memory keeps the canonical form. -/
theorem wfFrom_write {m : Memory} {lo : Nat} (h : Memory.wfFrom d lo m = true) {a : Nat} (hl : lo ≤ a)
    (ha : a < 4096) (v : Byte) : Memory.wfFrom d lo (Memory.write d m a v) = true := by
  induction m generalizing lo with
  | nil =>
    unfold Memory.write
    split <;> simp_all [Memory.wfFrom]
  | cons e m ih =>
    obtain ⟨b, x⟩ := e
    have hw := h
    simp only [Memory.wfFrom, Bool.and_eq_true, decide_eq_true_eq] at h
    unfold Memory.write
    split
    · rename_i hab
      split
      · exact hw
      · rename_i hv
        simp only [Memory.wfFrom, Bool.and_eq_true, decide_eq_true_eq, bne_iff_ne]
        refine ⟨⟨⟨hl, ha⟩, hv⟩, ⟨⟨by omega, h.1.1.2⟩, by simpa using h.1.2⟩, h.2⟩
    · split
      · rename_i hab
        subst hab
        split
        · exact wfFrom_mono d h.2 (by omega)
        · rename_i hv
          simp only [Memory.wfFrom, Bool.and_eq_true, decide_eq_true_eq, bne_iff_ne]
          exact ⟨⟨⟨hl, ha⟩, hv⟩, h.2⟩
      · rename_i hab hne
        simp only [Memory.wfFrom, Bool.and_eq_true, decide_eq_true_eq]
        exact ⟨h.1, ih h.2 (by omega)⟩

/-- A write at an address of memory keeps the canonical form. -/
theorem wf_write {m : Memory} (h : Memory.wf d m = true) {a : Nat} (ha : a < 4096) (v : Byte) :
    Memory.wf d (Memory.write d m a v) = true := wfFrom_write d h (Nat.zero_le a) ha v

/-- A block write inside memory keeps the canonical form. -/
theorem wf_writeBytes {m : Memory} (h : Memory.wf d m = true) {a : Nat} {bs : List Byte}
    (ha : a + bs.length ≤ 4096) : Memory.wf d (Memory.writeBytes d m a bs) = true := by
  induction bs generalizing m a with
  | nil => exact h
  | cons b bs ih =>
    simp only [List.length_cons] at ha
    exact ih (wf_write d h (by omega) b) (by omega)

/-- A block write leaves every address outside the block alone, in any list. -/
theorem read_writeBytes_outside (m : Memory) {a k : Nat} {bs : List Byte}
    (h : k < a ∨ a + bs.length ≤ k) : Memory.read d (Memory.writeBytes d m a bs) k = Memory.read d m k := by
  induction bs generalizing m a with
  | nil => rfl
  | cons b bs ih =>
    simp only [List.length_cons] at h
    show Memory.read d (Memory.writeBytes d (Memory.write d m a b) (a + 1) bs) k = _
    rw [ih _ (by omega), read_write_ne d m b (by omega)]

/-- Inside the block, each address reads as the byte written to it. -/
theorem read_writeBytes_inside {m : Memory} (h : Memory.wf d m = true) {a k : Nat} {bs : List Byte}
    (ha : a + bs.length ≤ 4096) (hk : k < bs.length) :
    Memory.read d (Memory.writeBytes d m a bs) (a + k) = bs[k] := by
  induction bs generalizing m a k with
  | nil => simp at hk
  | cons b bs ih =>
    simp only [List.length_cons] at ha hk
    show Memory.read d (Memory.writeBytes d (Memory.write d m a b) (a + 1) bs) (a + k) = _
    cases k with
    | zero =>
      rw [read_writeBytes_outside d _ (by omega)]
      exact read_write_same d h a b
    | succ k =>
      have e : a + (k + 1) = (a + 1) + k := by omega
      rw [e, ih (wf_write d h (by omega) b) (by omega) (by omega)]
      rfl

/-- Two canonical memories that read the same at every address are the same list. -/
theorem ext_of_wfFrom {m m' : Memory} {lo : Nat} (h : Memory.wfFrom d lo m = true)
    (h' : Memory.wfFrom d lo m' = true) (e : ∀ a, Memory.read d m a = Memory.read d m' a) : m = m' := by
  induction m generalizing m' lo with
  | nil =>
    cases m' with
    | nil => rfl
    | cons p m' =>
      obtain ⟨b, x⟩ := p
      simp only [Memory.wfFrom, Bool.and_eq_true, decide_eq_true_eq, bne_iff_ne] at h'
      exact absurd (by simpa using (e b).symm) h'.1.2
  | cons p m ih =>
    obtain ⟨b, x⟩ := p
    simp only [Memory.wfFrom, Bool.and_eq_true, decide_eq_true_eq, bne_iff_ne] at h
    cases m' with
    | nil => exact absurd (by simpa using e b) h.1.2
    | cons p' m' =>
      obtain ⟨b', x'⟩ := p'
      simp only [Memory.wfFrom, Bool.and_eq_true, decide_eq_true_eq, bne_iff_ne] at h'
      have hb : b = b' := by
        rcases Nat.lt_trichotomy b b' with hlt | heq | hlt
        · have := e b
          rw [read_cons, if_pos rfl, read_cons, if_neg (by omega), read_of_lt d h'.2 (by omega)] at this
          exact absurd this h.1.2
        · exact heq
        · have := e b'
          rw [read_cons, if_neg (by omega), read_cons, if_pos rfl, read_of_lt d h.2 (by omega)] at this
          exact absurd this.symm h'.1.2
      subst hb
      have hx : x = x' := by simpa using e b
      subst hx
      congr 1
      refine ih h.2 h'.2 fun a => ?_
      by_cases ha : a < b + 1
      · rw [read_of_lt d h.2 ha, read_of_lt d h'.2 ha]
      · have := e a
        rwa [read_cons, read_cons, if_neg (by omega), if_neg (by omega)] at this

/-- Equal memories are equal data: canonical memories that read the same are the same list. -/
theorem ext_of_wf {m m' : Memory} (h : Memory.wf d m = true) (h' : Memory.wf d m' = true)
    (e : ∀ a, Memory.read d m a = Memory.read d m' a) : m = m' := ext_of_wfFrom d h h' e

end Sys2Proof.Machine.Memory
end

