-- ==== Sys2Proof/Laws/Ops.lean ====
section
/-! SUPPORT. For each shared operation, what it answers: cited by proofs in place of its definition. -/

namespace Sys2Proof.Machine

/-! ## Faults and the end of a step -/

/-- A fault changes the status and nothing else. -/
theorem raise_eq (f : Fault) (s : State) : raise f s = .next (s.setStatus (.faulted f)) := rfl

@[simp] theorem commit_ok (s t : State) : s.commit (.ok t) = .next t := rfl

@[simp] theorem commit_error (s : State) (f : Fault) : s.commit (.error f) = raise f s := rfl

/-- The end of a step answers the state its operation gave, or the start with a faulted status. -/
theorem commit_eq_next {s t : State} {r : Except Fault State} :
    s.commit r = .next t ↔ r = .ok t ∨ ∃ f, r = .error f ∧ t = s.setStatus (.faulted f) := by
  cases r with
  | ok u => simp [State.commit]
  | error f => simp [State.commit, raise, eq_comm]

@[simp] theorem map_ok {α β : Type} (f : α → β) (a : α) :
    (Except.ok a : Except Fault α).map f = .ok (f a) := rfl

@[simp] theorem map_error {α β : Type} (f : α → β) (e : Fault) :
    (Except.error e : Except Fault α).map f = .error e := rfl

namespace State

/-! ## Memory -/

theorem readAt_ok {s : State} {a : Nat} (h : a ≤ 4095) : s.readAt a = .ok (s.byteAt a) := by
  simp [readAt, Nat.not_lt.mpr h]

theorem readAt_error {s : State} {a : Nat} (h : 4095 < a) :
    s.readAt a = .error (.outOfBounds (BitVec.ofNat 16 a)) := by
  simp [readAt, h]

theorem writeSeq_ok {s : State} {w : Word} {bs : List Byte} (h : w.toNat + bs.length ≤ 4096) :
    s.writeSeq w bs = .ok (s.putBytes w.toNat bs) := by
  simp [writeSeq, Nat.not_lt.mpr h]

theorem writeSeq_error {s : State} {w : Word} {bs : List Byte} (h : 4096 < w.toNat + bs.length) :
    s.writeSeq w bs = .error (.outOfBounds w) := by
  simp [writeSeq, h]

/-- The bound `read_seq` adds to the address (20_memory.md R63). -/
theorem readSeq_legacy {s : State} (hc : s.cfg.readSeqBound = .legacy16) (w : Word) (n : Nat) :
    s.readSeq w n = if w.toNat > 4080 then .error (.outOfBounds w) else .ok (s.bytesFrom w.toNat n) := by
  have h : (w.toNat + 16 > 4096) ↔ (w.toNat > 4080) := by omega
  simp [readSeq, hc, h]

theorem readSeq_exact {s : State} (hc : s.cfg.readSeqBound = .exact) (w : Word) (n : Nat) :
    s.readSeq w n =
      if w.toNat + n > 4096 then .error (.outOfBounds w) else .ok (s.bytesFrom w.toNat n) := by
  simp [readSeq, hc]

/-- Whatever READ_SEQ_BOUND is, a read that succeeds gives the bytes at the address. -/
theorem readSeq_eq_ok {s : State} {w : Word} {n : Nat} {bs : List Byte} (h : s.readSeq w n = .ok bs) :
    bs = s.bytesFrom w.toNat n := by
  unfold readSeq at h
  simp only at h
  split at h
  all_goals split at h <;> simp_all

@[simp] theorem length_bytesFrom (s : State) (a n : Nat) : (s.bytesFrom a n).length = n := by
  simp [bytesFrom]

theorem getElem_bytesFrom (s : State) (a n k : Nat) (h : k < (s.bytesFrom a n).length) :
    (s.bytesFrom a n)[k] = s.byteAt (a + k) := by
  simp [bytesFrom]

@[simp] theorem length_bcdDigits (v : Byte) : (bcdDigits v).length = 3 := rfl

@[simp] theorem length_regsUpTo (s : State) (x : RegIdx) : (s.regsUpTo x).length = x.val + 1 := by
  simp only [regsUpTo, List.length_take, Vector.length_toList]
  omega

theorem getElem_regsUpTo (s : State) (x k : RegIdx) (h : k.val < (s.regsUpTo x).length) :
    (s.regsUpTo x)[k.val] = s.getV k := by
  simp [regsUpTo, getV]

/-- A block stored inside memory reads back, and every other address reads as before. -/
theorem byteAt_putBytes_inside {s : State} (h : s.memWf = true) {a k : Nat} {bs : List Byte}
    (ha : a + bs.length ≤ 4096) (hk : k < bs.length) : (s.putBytes a bs).byteAt (a + k) = bs[k] :=
  Memory.read_writeBytes_inside _ h ha hk

theorem byteAt_putBytes_outside (s : State) {a k : Nat} {bs : List Byte}
    (h : k < a ∨ a + bs.length ≤ k) : (s.putBytes a bs).byteAt k = s.byteAt k :=
  Memory.read_writeBytes_outside _ _ h

/-- Every store keeps the canonical form of memory. -/
theorem memWf_putBytes {s : State} (h : s.memWf = true) {a : Nat} {bs : List Byte}
    (ha : a + bs.length ≤ 4096) : (s.putBytes a bs).memWf = true := Memory.wf_writeBytes _ h ha

/-- The canonical form is about the parameters and the memory alone. -/
theorem memWf_congr {s t : State} (hc : t.cfg = s.cfg) (hm : t.mem = s.mem) : t.memWf = s.memWf := by
  simp [memWf, hc, hm]

/-! ## The stack -/

theorem push_ok {s : State} (h : s.stack.length < 16) (w : Word) :
    s.push w = .ok (s.setStack (s.stack ++ [w])) := by
  simp [push, h]

theorem push_error {s : State} (h : 16 ≤ s.stack.length) (w : Word) : s.push w = .error .stackOverflow := by
  simp [push, Nat.not_lt.mpr h]

theorem pop_nil {s : State} (h : s.stack = []) : s.pop = .error .stackUnderflow := by
  simp [pop, h]

theorem pop_concat {s : State} {l : List Word} {w : Word} (h : s.stack = l ++ [w]) :
    s.pop = .ok (w, s.setStack l) := by
  simp [pop, h]

/-! ## Fetch and decode -/

theorem fetchWord_ok {s : State} (h : s.pc.toNat + 1 ≤ 4095) :
    s.fetchWord = .ok (wordOfBytes (s.byteAt s.pc.toNat) (s.byteAt (s.pc.toNat + 1))) := by
  rw [fetchWord, readAt_ok (by omega), readAt_ok h]

theorem fetchWord_first {s : State} (h : 4095 < s.pc.toNat) : s.fetchWord = .error (.outOfBounds s.pc) := by
  rw [fetchWord, readAt_error h]
  simp

theorem fetchWord_second {s : State} (h : s.pc.toNat = 4095) :
    s.fetchWord = .error (.outOfBounds 0x1000) := by
  rw [fetchWord, readAt_ok (by omega), readAt_error (by omega), h]
  rfl

/-- A word is fetched only when both of its bytes are in memory. -/
theorem fetchWord_eq_ok {s : State} {w : Word} (h : s.fetchWord = .ok w) :
    s.pc.toNat + 1 ≤ 4095 ∧ w = wordOfBytes (s.byteAt s.pc.toNat) (s.byteAt (s.pc.toNat + 1)) := by
  by_cases h1 : 4095 < s.pc.toNat
  · rw [fetchWord_first h1] at h
    cases h
  · by_cases h2 : s.pc.toNat = 4095
    · rw [fetchWord_second h2] at h
      cases h
    · have h3 : s.pc.toNat + 1 ≤ 4095 := by omega
      rw [fetchWord_ok h3] at h
      cases h
      exact ⟨h3, rfl⟩

theorem fetchInstr_ok {s : State} {w : Word} {i : Instr} (h : s.fetchWord = .ok w)
    (hd : decode s.cfg.strict59 w = .instr i) : s.fetchInstr = .ok i := by
  simp [fetchInstr, h, hd]

theorem fetchInstr_illegal {s : State} {w w' : Word} (h : s.fetchWord = .ok w)
    (hd : decode s.cfg.strict59 w = .illegal w') : s.fetchInstr = .error (.illegalOpcode w') := by
  simp [fetchInstr, h, hd]

theorem fetchInstr_fault {s : State} {f : Fault} (h : s.fetchWord = .error f) :
    s.fetchInstr = .error f := by
  simp [fetchInstr, h]

/-- The instruction at pc depends on the parameters, pc and memory alone. -/
theorem fetchInstr_congr {s t : State} (hc : t.cfg = s.cfg) (hp : t.pc = s.pc) (hm : t.mem = s.mem) :
    t.fetchInstr = s.fetchInstr := by
  have e : ∀ a, t.byteAt a = s.byteAt a := fun a => by simp [byteAt, hc, hm]
  simp [fetchInstr, fetchWord, readAt, hc, hp, e]

end State

/-! ## Operands -/

theorem digitOf_le {b : Byte} (h : b.toNat ≤ 15) (p : WidePolicy) (w : Word) :
    digitOf p w b = .ok (b.extractLsb' 0 4).toFin := by
  simp [digitOf, h]

theorem digitOf_fault {b : Byte} (h : 15 < b.toNat) (w : Word) :
    digitOf .fault w b = .error (.undefined w) := by
  simp [digitOf, Nat.not_le.mpr h]

theorem digitOf_lowNibble (b : Byte) (w : Word) :
    digitOf .lowNibble w b = .ok (b.extractLsb' 0 4).toFin := by
  simp [digitOf]

/-- A digit or key number is the register value modulo 16. -/
theorem val_lowNibble (b : Byte) : ((b.extractLsb' 0 4).toFin : Fin 16).val = b.toNat % 16 := by
  simp [BitVec.extractLsb']

end Sys2Proof.Machine
end

