-- ==== Sys2Proof/Laws/PerInstr.lean ====
section
/-! SUPPORT. Statements about every instruction as syntax, one lemma per constructor. -/

namespace Sys2Proof.Laws.EncodesItsRow

/-- The encoder's word lies in the instruction's row of the opcode map: masked by the row's mask, it is the row's
pattern (30_encoding.md R98). -/
def Statement (i : Instr) : Prop := encode i &&& i.row.mask = i.row.pattern

/-- A word keeps its op under the mask of a format with a free nnn. -/
theorem mask_nnn (o : BitVec 4) (a : Addr12) : (o ++ a : Word) &&& 0xF000#16 = o ++ 0#12 := by
  show (o ++ a) &&& (BitVec.allOnes 4 ++ 0#12) = _
  rw [BitVec.and_append, BitVec.and_zero, BitVec.and_allOnes]

/-- A word keeps its op under the mask of a format with free x and kk. -/
theorem mask_xkk (o x : BitVec 4) (k : Byte) : (o ++ x ++ k : Word) &&& 0xF000#16 = o ++ 0#4 ++ 0#8 := by
  show (o ++ x ++ k) &&& (BitVec.allOnes 4 ++ 0#4 ++ 0#8) = _
  rw [BitVec.and_append, BitVec.and_append, BitVec.and_zero, BitVec.and_zero, BitVec.and_allOnes]

/-- A word keeps its op under the mask of a format with free x, y and n. -/
theorem mask_xyn (o x y n : BitVec 4) :
    (o ++ x ++ y ++ n : Word) &&& 0xF000#16 = o ++ 0#4 ++ 0#4 ++ 0#4 := by
  show (o ++ x ++ y ++ n) &&& (BitVec.allOnes 4 ++ 0#4 ++ 0#4 ++ 0#4) = o ++ 0#4 ++ 0#4 ++ 0#4
  simp only [BitVec.and_append, BitVec.and_zero, BitVec.and_allOnes]

/-- A word keeps its op and its sub-opcode n under the mask of family 8. -/
theorem mask_xy_sub (o x y n : BitVec 4) :
    (o ++ x ++ y ++ n : Word) &&& 0xF00F#16 = o ++ 0#4 ++ 0#4 ++ n := by
  show (o ++ x ++ y ++ n) &&& (BitVec.allOnes 4 ++ 0#4 ++ 0#4 ++ BitVec.allOnes 4) = o ++ 0#4 ++ 0#4 ++ n
  simp only [BitVec.and_append, BitVec.and_zero, BitVec.and_allOnes]

/-- A word keeps its op and its sub-opcode kk under the mask of families E and F. -/
theorem mask_x_sub (o x : BitVec 4) (k : Byte) : (o ++ x ++ k : Word) &&& 0xF0FF#16 = o ++ 0#4 ++ k := by
  show (o ++ x ++ k) &&& (BitVec.allOnes 4 ++ 0#4 ++ BitVec.allOnes 8) = _
  simp only [BitVec.and_append, BitVec.and_zero, BitVec.and_allOnes]

theorem sys (nnn : Addr12) : Statement (.sys nnn) :=
  mask_nnn 0x0#4 nnn

theorem cls : Statement (.cls) :=
  rfl

theorem ret : Statement (.ret) :=
  rfl

theorem jp (nnn : Addr12) : Statement (.jp nnn) :=
  mask_nnn 0x1#4 nnn

theorem call (nnn : Addr12) : Statement (.call nnn) :=
  mask_nnn 0x2#4 nnn

theorem seByte (x : RegIdx) (kk : Byte) : Statement (.seByte x kk) :=
  mask_xkk 0x3#4 (nib x) kk

theorem sneByte (x : RegIdx) (kk : Byte) : Statement (.sneByte x kk) :=
  mask_xkk 0x4#4 (nib x) kk

theorem seReg (x y : RegIdx) : Statement (.seReg x y) :=
  mask_xyn 0x5#4 (nib x) (nib y) 0x0#4

theorem ldByte (x : RegIdx) (kk : Byte) : Statement (.ldByte x kk) :=
  mask_xkk 0x6#4 (nib x) kk

theorem addByte (x : RegIdx) (kk : Byte) : Statement (.addByte x kk) :=
  mask_xkk 0x7#4 (nib x) kk

theorem ldReg (x y : RegIdx) : Statement (.ldReg x y) :=
  mask_xy_sub 0x8#4 (nib x) (nib y) 0x0#4

theorem orReg (x y : RegIdx) : Statement (.orReg x y) :=
  mask_xy_sub 0x8#4 (nib x) (nib y) 0x1#4

theorem andReg (x y : RegIdx) : Statement (.andReg x y) :=
  mask_xy_sub 0x8#4 (nib x) (nib y) 0x2#4

theorem xorReg (x y : RegIdx) : Statement (.xorReg x y) :=
  mask_xy_sub 0x8#4 (nib x) (nib y) 0x3#4

theorem addReg (x y : RegIdx) : Statement (.addReg x y) :=
  mask_xy_sub 0x8#4 (nib x) (nib y) 0x4#4

theorem subReg (x y : RegIdx) : Statement (.subReg x y) :=
  mask_xy_sub 0x8#4 (nib x) (nib y) 0x5#4

theorem shr (x y : RegIdx) : Statement (.shr x y) :=
  mask_xy_sub 0x8#4 (nib x) (nib y) 0x6#4

theorem subnReg (x y : RegIdx) : Statement (.subnReg x y) :=
  mask_xy_sub 0x8#4 (nib x) (nib y) 0x7#4

theorem shl (x y : RegIdx) : Statement (.shl x y) :=
  mask_xy_sub 0x8#4 (nib x) (nib y) 0xE#4

theorem sneReg (x y : RegIdx) : Statement (.sneReg x y) :=
  mask_xyn 0x9#4 (nib x) (nib y) 0x0#4

theorem ldI (nnn : Addr12) : Statement (.ldI nnn) :=
  mask_nnn 0xA#4 nnn

theorem jpV0 (nnn : Addr12) : Statement (.jpV0 nnn) :=
  mask_nnn 0xB#4 nnn

theorem rnd (x : RegIdx) (kk : Byte) : Statement (.rnd x kk) :=
  mask_xkk 0xC#4 (nib x) kk

theorem drw (x y : RegIdx) (n : Fin 16) : Statement (.drw x y n) :=
  mask_xyn 0xD#4 (nib x) (nib y) (nib n)

theorem skp (x : RegIdx) : Statement (.skp x) :=
  mask_x_sub 0xE#4 (nib x) 0x9E#8

theorem sknp (x : RegIdx) : Statement (.sknp x) :=
  mask_x_sub 0xE#4 (nib x) 0xA1#8

theorem ldVxDT (x : RegIdx) : Statement (.ldVxDT x) :=
  mask_x_sub 0xF#4 (nib x) 0x07#8

theorem ldVxK (x : RegIdx) : Statement (.ldVxK x) :=
  mask_x_sub 0xF#4 (nib x) 0x0A#8

theorem ldDTVx (x : RegIdx) : Statement (.ldDTVx x) :=
  mask_x_sub 0xF#4 (nib x) 0x15#8

theorem ldSTVx (x : RegIdx) : Statement (.ldSTVx x) :=
  mask_x_sub 0xF#4 (nib x) 0x18#8

theorem addI (x : RegIdx) : Statement (.addI x) :=
  mask_x_sub 0xF#4 (nib x) 0x1E#8

theorem ldF (x : RegIdx) : Statement (.ldF x) :=
  mask_x_sub 0xF#4 (nib x) 0x29#8

theorem ldB (x : RegIdx) : Statement (.ldB x) :=
  mask_x_sub 0xF#4 (nib x) 0x33#8

theorem storeRegs (x : RegIdx) : Statement (.storeRegs x) :=
  mask_x_sub 0xF#4 (nib x) 0x55#8

theorem loadRegs (x : RegIdx) : Statement (.loadRegs x) :=
  mask_x_sub 0xF#4 (nib x) 0x65#8

end Sys2Proof.Laws.EncodesItsRow
end

