-- ==== Sys2Proof/Laws/Step.lean ====
section
/-! SUPPORT. What a step and a sequence of transactions answer. -/

namespace Sys2Proof.Machine

theorem step_running_ok {s : State} {i : Instr} (h : s.status = .running) (hf : s.fetchInstr = .ok i) :
    step s = exec i s := by
  simp [step, h, hf]

theorem step_running_error {s : State} {f : Fault} (h : s.status = .running)
    (hf : s.fetchInstr = .error f) : step s = .next (s.setStatus (.faulted f)) := by
  simp [step, h, hf, raise]

theorem step_waiting {s : State} {x : RegIdx} (h : s.status = .waiting x) : step s = .next s := by
  simp [step, h]

theorem step_faulted {s : State} {f : Fault} (h : s.status = .faulted f) : step s = .next s := by
  simp [step, h]

/-- Everything a step can do: nothing, the fault of the fetch or of decode, or the instruction at pc. -/
theorem step_cases (s : State) :
    (s.status ≠ .running ∧ step s = .next s) ∨
    (s.status = .running ∧ ∃ f, s.fetchInstr = .error f ∧ step s = .next (s.setStatus (.faulted f))) ∨
    (s.status = .running ∧ ∃ i, s.fetchInstr = .ok i ∧ step s = exec i s) := by
  cases h : s.status with
  | running =>
    cases hf : s.fetchInstr with
    | error f => exact .inr (.inl ⟨rfl, f, rfl, step_running_error h hf⟩)
    | ok i => exact .inr (.inr ⟨rfl, i, rfl, step_running_ok h hf⟩)
  | waiting x => exact .inl ⟨by simp, step_waiting h⟩
  | faulted f => exact .inl ⟨by simp, step_faulted h⟩

@[simp] theorem runAll_nil (s : State) : runAll [] s = .next s := rfl

theorem runAll_cons_next {t : Transaction} {ts : List Transaction} {s s' : State}
    (h : t.apply s = .next s') : runAll (t :: ts) s = runAll ts s' := by
  simp [runAll, h]

end Sys2Proof.Machine
end

