-- ==== Sys2Proof/Tests/Slice0.lean ====
section
/-! SUPPORT. The model's own tests: the smoke tests of WellFormed, one written-out word for every constructor, one step
on a small state for every instruction (the expected results are the vectors of 95_test_vectors.md, named in each
comment), and for every statement with hypotheses a witness that meets them, at the ends of its ranges. -/

namespace Sys2Proof.Tests

open Sys2Proof.Machine

/-! ## Helpers -/

/-- The state a result goes on in. -/
def after : Result → Option State
  | .next t => some t
  | .fault _ => none
  | .refused _ => none

/-- One step of the machine with the word at pc. -/
def run (w : Nat) (s : State) : Option State := after (step (s.withFetchWord 16 w))

/-- The reset state with these registers. -/
def vs (l : List (RegIdx × Byte)) : State := l.foldl (fun s p => s.setV p.1 p.2) State.reset

/-- The registers of an optional state. -/
def V (r : Option State) (x : RegIdx) : Option Byte := r.map fun t => t.getV x

def pcOf (r : Option State) : Option Word := r.map fun t => t.pc

def iOf (r : Option State) : Option Word := r.map fun t => t.i

def statusOf (r : Option State) : Option Status := r.map fun t => t.status

def stackOf (r : Option State) : Option (List Word) := r.map fun t => t.stack

def bytesAt (r : Option State) (a n : Nat) : Option (List Byte) := r.map fun t => t.bytesFrom a n

/-- The reset state of a machine with other parameters. -/
def withCfg (f : Config → Config) (s : State) : State := { s with cfg := f s.cfg }

/-- A state with n return addresses 0x202. -/
def deep (n : Nat) : State := State.reset.setStack (List.replicate n 0x202)

/-- A state in which a fault happened. -/
def dead : State := State.reset.setStatus (.faulted .stackOverflow)

/-! ## WellFormed -/

theorem test_wf_refuses_sys_00E0 : (Instr.sys 0x0E0).wellFormed = false := by decide
theorem test_wf_refuses_sys_00EE : (Instr.sys 0x0EE).wellFormed = false := by decide
theorem test_wf_accepts_sys_0FFF : (Instr.sys 0xFFF).wellFormed = true := by decide
theorem test_wf_accepts_cls : Instr.cls.wellFormed = true := by decide

/-! ## Decoding: one word per constructor, written out bit by bit from the patterns of 30_encoding.md R98 -/

theorem test_decode_sys : decode false 0b0000_0001_0010_0011 = .instr (.sys 0x123) := by decide
theorem test_decode_cls : decode false 0b0000_0000_1110_0000 = .instr .cls := by decide
theorem test_decode_ret : decode false 0b0000_0000_1110_1110 = .instr .ret := by decide
theorem test_decode_jp : decode false 0b0001_1010_1011_1100 = .instr (.jp 0xABC) := by decide
theorem test_decode_call : decode false 0b0010_0011_0000_0000 = .instr (.call 0x300) := by decide
theorem test_decode_seByte : decode false 0b0011_0011_0001_0010 = .instr (.seByte 3 0x12) := by decide
theorem test_decode_sneByte : decode false 0b0100_0011_0001_0010 = .instr (.sneByte 3 0x12) := by decide
theorem test_decode_seReg : decode true 0b0101_0001_0010_0000 = .instr (.seReg 1 2) := by decide
theorem test_decode_ldByte : decode false 0b0110_1010_1111_1111 = .instr (.ldByte 10 0xFF) := by decide
theorem test_decode_addByte : decode false 0b0111_0010_0000_0011 = .instr (.addByte 2 3) := by decide
theorem test_decode_ldReg : decode false 0b1000_0000_0001_0000 = .instr (.ldReg 0 1) := by decide
theorem test_decode_orReg : decode false 0b1000_0000_0001_0001 = .instr (.orReg 0 1) := by decide
theorem test_decode_andReg : decode false 0b1000_0000_0001_0010 = .instr (.andReg 0 1) := by decide
theorem test_decode_xorReg : decode false 0b1000_0000_0001_0011 = .instr (.xorReg 0 1) := by decide
theorem test_decode_addReg : decode false 0b1000_1111_0001_0100 = .instr (.addReg 15 1) := by decide
theorem test_decode_subReg : decode false 0b1000_1000_1100_0101 = .instr (.subReg 8 12) := by decide
theorem test_decode_shr : decode false 0b1000_0000_0001_0110 = .instr (.shr 0 1) := by decide
theorem test_decode_subnReg : decode false 0b1000_0000_0001_0111 = .instr (.subnReg 0 1) := by decide
theorem test_decode_shl : decode false 0b1000_1111_1100_1110 = .instr (.shl 15 12) := by decide
theorem test_decode_sneReg : decode true 0b1001_0001_0010_0000 = .instr (.sneReg 1 2) := by decide
theorem test_decode_ldI : decode false 0b1010_0010_1111_0000 = .instr (.ldI 0x2F0) := by decide
theorem test_decode_jpV0 : decode false 0b1011_0011_0000_0000 = .instr (.jpV0 0x300) := by decide
theorem test_decode_rnd : decode false 0b1100_0011_0000_1111 = .instr (.rnd 3 0x0F) := by decide
theorem test_decode_drw : decode false 0b1101_0000_0001_0101 = .instr (.drw 0 1 5) := by decide
theorem test_decode_skp : decode false 0b1110_0101_1001_1110 = .instr (.skp 5) := by decide
theorem test_decode_sknp : decode false 0b1110_0101_1010_0001 = .instr (.sknp 5) := by decide
theorem test_decode_ldVxDT : decode false 0b1111_0100_0000_0111 = .instr (.ldVxDT 4) := by decide
theorem test_decode_ldVxK : decode false 0b1111_0011_0000_1010 = .instr (.ldVxK 3) := by decide
theorem test_decode_ldDTVx : decode false 0b1111_0100_0001_0101 = .instr (.ldDTVx 4) := by decide
theorem test_decode_ldSTVx : decode false 0b1111_0010_0001_1000 = .instr (.ldSTVx 2) := by decide
theorem test_decode_addI : decode false 0b1111_0001_0001_1110 = .instr (.addI 1) := by decide
theorem test_decode_ldF : decode false 0b1111_0010_0010_1001 = .instr (.ldF 2) := by decide
theorem test_decode_ldB : decode false 0b1111_0000_0011_0011 = .instr (.ldB 0) := by decide
theorem test_decode_storeRegs : decode false 0b1111_0010_0101_0101 = .instr (.storeRegs 2) := by decide
theorem test_decode_loadRegs : decode false 0b1111_1111_0110_0101 = .instr (.loadRegs 15) := by decide

/-- D5 to D9: illegal words. -/
theorem test_decode_illegal : decode false 0x8008 = .illegal 0x8008 ∧ decode false 0x800F = .illegal 0x800F ∧
    decode false 0xE09F = .illegal 0xE09F ∧ decode false 0xF000 = .illegal 0xF000 ∧
    decode false 0xF1FF = .illegal 0xF1FF := by decide

/-- D10 and its twin of family 9: STRICT_5_9. -/
theorem test_decode_strict59 : decode false 0x5121 = .instr (.seReg 1 2) ∧ decode true 0x5121 = .illegal 0x5121 ∧
    decode false 0x912F = .instr (.sneReg 1 2) ∧ decode true 0x912F = .illegal 0x912F := by decide

/-- The first byte in memory is the high byte (20_memory.md R69). -/
theorem test_decode_bytes : decodeBytes false [0x60, 0x05] = some (.instr (.ldByte 0 5)) ∧
    decodeBytes false [0x60] = none := by decide

/-- The table's numbering: bit 0 is bit 0 of the word. -/
theorem test_decode_table_word : decodeTableWord 16 0x6005 = some (.ldByte 0 5) ∧
    decodeTableWord 16 0x8008 = none := by decide

/-! ## Fetch -/

/-- D2: the fetch at 0x1000. -/
theorem test_fetch_past_end : statusOf (after (step (State.reset.setPc 0x1000))) = some (.faulted (.outOfBounds 0x1000))
    := by decide

/-- D1: pc = 0xFFF, the second byte is outside memory. -/
theorem test_fetch_last_byte : statusOf (after (step (State.reset.setPc 0xFFF))) = some (.faulted (.outOfBounds 0x1000)) ∧
    pcOf (after (step (State.reset.setPc 0xFFF))) = some 0xFFF := by decide

/-- D4: an odd pc. -/
theorem test_fetch_odd_pc : V (run 0x6307 (State.reset.setPc 0x201)) 3 = some 7 ∧
    pcOf (run 0x6307 (State.reset.setPc 0x201)) = some 0x203 := by decide

/-- D5: an illegal word faults with the word, pc stays. -/
theorem test_fetch_illegal : statusOf (run 0x8008 State.reset) = some (.faulted (.illegalOpcode 0x8008)) ∧
    pcOf (run 0x8008 State.reset) = some 0x200 := by decide

/-! ## Control flow -/

/-- F1. -/
theorem test_sys_fault : statusOf (run 0x0123 State.reset) = some (.faulted (.undefined 0x0123)) := by decide
theorem test_sys_nop : pcOf (run 0x0123 (withCfg (fun c => { c with sysPolicy := .nop }) State.reset)) = some 0x202 := by
  decide

/-- F3. -/
theorem test_cls : (run 0x00E0 ((vs [(15, 0x55)]).setFb (Vector.replicate 32 (BitVec.allOnes 64)))).map
    (fun t => (t.fb, t.getV 15, t.pc)) = some (Vector.replicate 32 0, 0x55, 0x202) := by decide

/-- F4, F5. -/
theorem test_ret : pcOf (run 0x00EE ((State.reset.setStack [0x206]).setPc 0x300)) = some 0x206 ∧
    stackOf (run 0x00EE ((State.reset.setStack [0x206]).setPc 0x300)) = some [] := by decide
theorem test_ret_underflow : statusOf (run 0x00EE State.reset) = some (.faulted .stackUnderflow) ∧
    pcOf (run 0x00EE State.reset) = some 0x200 := by decide

/-- F6. -/
theorem test_jp : pcOf (run 0x1ABC State.reset) = some 0xABC := by decide

/-- F10, F9. -/
theorem test_call : pcOf (run 0x2300 (State.reset.setPc 0xFFE)) = some 0x300 ∧
    stackOf (run 0x2300 (State.reset.setPc 0xFFE)) = some [0x1000] := by decide
theorem test_call_overflow : statusOf (run 0x2300 (deep 16)) = some (.faulted .stackOverflow) ∧
    stackOf (run 0x2300 (deep 16)) = some (deep 16).stack ∧ pcOf (run 0x2300 (deep 16)) = some 0x200 := by decide

/-- F11 to F18. -/
theorem test_seByte : pcOf (run 0x3312 (vs [(3, 0x12)])) = some 0x204 ∧ pcOf (run 0x3312 (vs [(3, 0x13)])) = some 0x202 := by
  decide
theorem test_sneByte : pcOf (run 0x4312 (vs [(3, 0x12)])) = some 0x202 ∧ pcOf (run 0x4312 (vs [(3, 0x13)])) = some 0x204 := by
  decide
theorem test_seReg : pcOf (run 0x5120 (vs [(1, 7), (2, 7)])) = some 0x204 ∧
    pcOf (run 0x5120 (vs [(1, 7), (2, 8)])) = some 0x202 := by decide
theorem test_sneReg : pcOf (run 0x9120 (vs [(1, 7), (2, 8)])) = some 0x204 ∧
    pcOf (run 0x9110 (vs [(1, 7), (2, 7)])) = some 0x202 := by decide

/-- F20, F21. -/
theorem test_jpV0 : pcOf (run 0xBFFF (vs [(0, 0xFF)])) = some 0x10FE := by decide
theorem test_jpV0_vx : pcOf (run 0xB300 (withCfg (fun c => { c with jumpOffsetReg := .vx }) (vs [(0, 0x10), (3, 0x20)])))
    = some 0x320 := by decide

/-! ## Loads and arithmetic -/

/-- A1. -/
theorem test_ldByte : V (run 0x6AFF State.reset) 10 = some 0xFF := by decide

/-- A2, A3. -/
theorem test_addByte : V (run 0x7203 (vs [(2, 0xFE), (15, 0x55)])) 2 = some 0x01 ∧
    V (run 0x7203 (vs [(2, 0xFE), (15, 0x55)])) 15 = some 0x55 := by decide
theorem test_addByte_vf : V (run 0x7F05 (vs [(15, 0x10)])) 15 = some 0x15 := by decide

/-- A4. -/
theorem test_ldReg : V (run 0x8010 (vs [(1, 0x33)])) 0 = some 0x33 := by decide

/-- A5. -/
theorem test_orReg : V (run 0x8011 (vs [(0, 0x0F), (1, 0xF0), (15, 0x55)])) 0 = some 0xFF ∧
    V (run 0x8011 (vs [(0, 0x0F), (1, 0xF0), (15, 0x55)])) 15 = some 0x55 := by decide
theorem test_orReg_vf_reset : V (run 0x8011 (withCfg (fun c => { c with logicVfReset := true })
    (vs [(0, 0x0F), (1, 0xF0), (15, 0x55)]))) 15 = some 0 := by decide

/-- A6, A7, A8. -/
theorem test_andReg : V (run 0x8012 (vs [(0, 0x3C), (1, 0x0F)])) 0 = some 0x0C := by decide
theorem test_xorReg : V (run 0x8013 (vs [(0, 0x3C), (1, 0x0F)])) 0 = some 0x33 ∧
    V (run 0x8003 (vs [(0, 0x3C)])) 0 = some 0 := by decide

/-- A9, A12. -/
theorem test_addReg : V (run 0x8014 (vs [(0, 0xC8), (1, 0x64)])) 0 = some 0x2C ∧
    V (run 0x8014 (vs [(0, 0xC8), (1, 0x64)])) 15 = some 1 := by decide
theorem test_addReg_vf : V (run 0x8F14 (vs [(15, 0xFF), (1, 1)])) 15 = some 1 := by decide

/-- A14, A16. -/
theorem test_subReg : V (run 0x8015 (vs [(0, 5), (1, 7)])) 0 = some 0xFE ∧
    V (run 0x8015 (vs [(0, 5), (1, 7)])) 15 = some 0 := by decide
theorem test_subReg_equal : V (run 0x8015 (vs [(0, 5), (1, 5)])) 0 = some 0 ∧
    V (run 0x8015 (vs [(0, 5), (1, 5)])) 15 = some 1 := by decide

/-- A19, A22. -/
theorem test_shr : V (run 0x8006 (vs [(0, 5)])) 0 = some 2 ∧ V (run 0x8006 (vs [(0, 5)])) 15 = some 1 := by decide
theorem test_shr_vy : V (run 0x8016 (withCfg (fun c => { c with shiftSource := .vy }) (vs [(0, 0xFF), (1, 4)]))) 0 = some 2 ∧
    V (run 0x8016 (withCfg (fun c => { c with shiftSource := .vy }) (vs [(0, 0xFF), (1, 4)]))) 15 = some 0 := by decide

/-- A23, A24. -/
theorem test_subnReg : V (run 0x8017 (vs [(0, 5), (1, 7)])) 0 = some 2 ∧
    V (run 0x8017 (vs [(0, 5), (1, 7)])) 15 = some 1 := by decide
theorem test_subnReg_borrow : V (run 0x8017 (vs [(0, 7), (1, 5)])) 0 = some 0xFE ∧
    V (run 0x8017 (vs [(0, 7), (1, 5)])) 15 = some 0 := by decide

/-- A25, A27. -/
theorem test_shl : V (run 0x800E (vs [(0, 0x81)])) 0 = some 2 ∧ V (run 0x800E (vs [(0, 0x81)])) 15 = some 1 := by decide
theorem test_shl_vf : V (run 0x8FFE (vs [(15, 0x80)])) 15 = some 1 := by decide

/-! ## Random, draw, keys -/

/-- R1 (the byte is given to the shared operation), R2 (the byte is any). -/
theorem test_rnd_mask : (State.reset.randomInto 3 0xA7 0x0F).getV 3 = 0x07 := by decide
theorem test_rnd_draws : (after (exec (.rnd 3 0) State.reset)).map (fun t => t.draws) = some 1 := by decide

/-- R7: a row across the right edge; R9: the legacy bound. -/
theorem test_drw_wraps : (run 0xD011 (((vs [(0, 0x3C)]).setI 0x300).putBytes 0x300 [0xFF])).map
    (fun t => (t.fb[0], t.fb[1], t.getV 15)) = some (0xF00000000000000F, 0, 0) := by decide
theorem test_drw_legacy_bound : statusOf (run 0xD011 (State.reset.setI 0xFF1)) = some (.faulted (.outOfBounds 0xFF1)) ∧
    statusOf (run 0xD011 (State.reset.setI 0xFF0)) = some .running := by decide

/-- R11, R12. -/
theorem test_skp : pcOf (run 0xE59E ((vs [(5, 10)]).pressKey 10)) = some 0x204 ∧
    pcOf (run 0xE59E (vs [(5, 10)])) = some 0x202 := by decide

/-- R14. -/
theorem test_skp_wide : statusOf (run 0xE59E (vs [(5, 0x10)])) = some (.faulted (.undefined 0xE59E)) := by decide

/-- R13. -/
theorem test_sknp : pcOf (run 0xE5A1 ((vs [(5, 10)]).pressKey 10)) = some 0x202 ∧
    pcOf (run 0xE5A1 (vs [(5, 10)])) = some 0x204 := by decide

/-- R15, R16. -/
theorem test_ldVxK : statusOf (run 0xF30A (State.reset.setPc 0x210)) = some (.waiting 3) ∧
    pcOf (run 0xF30A (State.reset.setPc 0x210)) = some 0x210 := by decide
theorem test_ldVxK_key : (run 0xF30A (State.reset.setPc 0x210)).map
    (fun t => ((t.keyDown 0xB).getV 3, (t.keyDown 0xB).pc, (t.keyDown 0xB).status)) = some (0x0B, 0x212, .running) := by
  decide

/-! ## Timers -/

/-- T1, T2, T3. -/
theorem test_ldVxDT : V (run 0xF407 (State.reset.setDT 0x3C)) 4 = some 0x3C := by decide
theorem test_ldDTVx : (run 0xF415 (vs [(4, 0x3C)])).map (fun t => t.dt) = some 0x3C := by decide
theorem test_ldSTVx : (run 0xF218 (vs [(2, 5)])).map (fun t => (t.st, t.tone)) = some (5, true) := by decide

/-- T5, T6. -/
theorem test_tick : (((State.reset.setDT 1).setST 2).tickTimers.dt, ((State.reset.setDT 1).setST 2).tickTimers.st) = (0, 1)
    ∧ (State.reset.tickTimers).st = 0 := by decide
theorem test_tick_faulted : (dead.setDT 5).tickTimers.dt = 5 := by decide

/-! ## Index and memory -/

/-- M1. -/
theorem test_ldI : iOf (run 0xA2F0 State.reset) = some 0x2F0 := by decide

/-- M3, M4. -/
theorem test_addI : iOf (run 0xF11E ((vs [(1, 1)]).setI 0xFFF)) = some 0x1000 ∧
    V (run 0xF11E ((vs [(1, 1)]).setI 0xFFF)) 15 = some 0 := by decide
theorem test_addI_wraps : iOf (run 0xF11E ((vs [(1, 1)]).setI 0xFFFF)) = some 0 := by decide

/-- M6, M7. -/
theorem test_ldF : iOf (run 0xF229 (vs [(2, 0xF)])) = some 0x04B := by decide
theorem test_ldF_wide : statusOf (run 0xF229 (vs [(2, 0x10)])) = some (.faulted (.undefined 0xF229)) := by decide

/-- E1, M11. -/
theorem test_ldB : bytesAt (run 0xF033 ((vs [(0, 123)]).setI 0x045)) 0x045 3 = some [1, 2, 3] ∧
    iOf (run 0xF033 ((vs [(0, 123)]).setI 0x045)) = some 0x045 := by decide
theorem test_ldB_bound : statusOf (run 0xF033 (State.reset.setI 0xFFE)) = some (.faulted (.outOfBounds 0xFFE)) := by decide

/-- M13, M14. -/
theorem test_storeRegs : bytesAt (run 0xF255 ((vs [(0, 1), (1, 2), (2, 3), (3, 4)]).setI 0x300)) 0x300 4 = some [1, 2, 3, 0] ∧
    iOf (run 0xF255 ((vs [(0, 1), (1, 2), (2, 3), (3, 4)]).setI 0x300)) = some 0x300 := by decide
theorem test_storeRegs_moves_i : iOf (run 0xF255 (withCfg (fun c => { c with loadStoreI := .plusXPlus1 })
    (State.reset.setI 0x300))) = some 0x303 := by decide

/-- M16, M17. -/
theorem test_loadRegs : (run 0xF265 ((State.reset.setI 0x300).putBytes 0x300 [1, 2, 3, 4])).map
    (fun t => (t.getV 0, t.getV 1, t.getV 2, t.getV 3)) = some (1, 2, 3, 0) := by decide
theorem test_loadRegs_legacy_bound : statusOf (run 0xF065 (State.reset.setI 0xFF8)) = some (.faulted (.outOfBounds 0xFF8))
    := by decide

/-- A font byte overwritten with its own value is not listed, so equal memories are equal data. -/
theorem test_memory_canonical : (State.reset.putBytes 0 [0xF0]).mem = [] ∧ (State.reset.putBytes 0x300 [0]).mem = [] ∧
    ((State.reset.putBytes 0x300 [1]).putBytes 0x300 [0]).mem = [] := by decide

/-- R42: a sprite of 17 rows. -/
theorem test_sprite_too_tall : (Sprite.new [] 17 = .error .spriteTooTall) := by rfl

/-- The codes of R270. -/
theorem test_fault_codes : [Fault.outOfBounds 0, .stackOverflow, .stackUnderflow, .illegalOpcode 0, .spriteTooTall,
    .undefined 0].map Fault.code = [1, 2, 3, 4, 5, 6] := by decide

/-! ## Witnesses: for each statement with hypotheses, states and operands that meet them, at the ends of the ranges -/

/-- Parameters with other values. -/
def exactCfg : State := withCfg (fun c => { c with readSeqBound := .exact }) State.reset

def arbCfg : Config := { Config.default with resetRegs := .arbitrary }

def someDraw : ResetDraw := ⟨Vector.replicate 16 7, 0xFFFF, 9, 255⟩

theorem witness_ResetLeavesTheStatedState :
    Config.default.resetRegs = .zero ∧ arbCfg.resetRegs = .arbitrary ∧
    State.reset.byteAt (Config.default.fontBase.toNat + 0) = 0xF0 ∧
    State.reset.byteAt (Config.default.fontBase.toNat + 79) = 0x80 ∧
    State.reset.byteAt (Config.default.fontBase.toNat + 80) = 0 ∧
    (State.resetWith arbCfg someDraw 0).getV 15 = 7 ∧ (State.resetWith arbCfg someDraw 0).tone = true := by decide

theorem reset_memWf : State.reset.memWf = true := by decide

theorem reset_inv : Inv State.reset where
  cfgOk := by decide
  memOk := by decide
  depth := by decide
  pcLe := by decide
  retLe := fun w h => nomatch (show w ∈ ([] : List Word) from h)
  waitAt := fun x h => nomatch (show Status.running = .waiting x from h)

theorem witness_ResetMeetsTheInvariant : Config.default.wf = true ∧ arbCfg.wf = true ∧
    Config.wf { Config.default with fontBase := 0x1B0 } = true := by decide

theorem witness_LoadRomPlacesTheBytes : State.reset.memWf = true ∧
    (List.replicate 3584 (0 : Byte)).length ≤ 3584 ∧ 3584 < (List.replicate 3585 (0 : Byte)).length ∧
    ([] : List Byte).length ≤ 3584 := by
  refine ⟨reset_memWf, ?_, ?_, by decide⟩ <;> rw [List.length_replicate]; decide

/-- The last two bytes of memory hold 6001 (D3). -/
def atTop : State := (State.reset.setPc 4094).putBytes 4094 [0x60, 0x01]

theorem witness_StepRunsTheDecodedInstruction : atTop.status = .running ∧ atTop.pc.toNat + 1 ≤ 4095 ∧
    decode atTop.cfg.strict59 (wordOfBytes (atTop.byteAt atTop.pc.toNat) (atTop.byteAt (atTop.pc.toNat + 1)))
      = .instr (.ldByte 0 1) ∧
    (after (step atTop)).map (fun t => (t.getV 0, t.pc)) = some (1, 0x1000) := by decide

theorem witness_FetchAndDecodeFaults :
    (State.reset.setPc 4096).status = .running ∧ 4095 < (State.reset.setPc 4096).pc.toNat ∧
    (State.reset.setPc 4095).pc.toNat = 4095 ∧
    (atTop.putBytes 4094 [0x80, 0x08]).pc.toNat + 1 ≤ 4095 ∧
    decode false (wordOfBytes ((atTop.putBytes 4094 [0x80, 0x08]).byteAt 4094) ((atTop.putBytes 4094 [0x80, 0x08]).byteAt 4095))
      = .illegal 0x8008 := by decide

theorem witness_StepOfAStoppedMachineChangesNothing :
    (State.reset.setStatus (.waiting 3)).status = .waiting 3 ∧ dead.status = .faulted .stackOverflow := by decide

theorem witness_PlacedWordIsWhatRuns : (State.reset.setPc 4094).memWf = true ∧
    (State.reset.setPc 4094).pc.toNat + 1 ≤ 4095 ∧
    decode (State.reset.setPc 4094).cfg.strict59 (BitVec.ofNat 16 65381) = .instr (.loadRegs 15) ∧
    decode State.reset.cfg.strict59 (BitVec.ofNat 16 0) = .instr (.sys 0) := by decide

theorem witness_DecodeOfEncodeIsTheInstruction : (Instr.sys 0xFFF).wellFormed = true ∧
    (Instr.drw 15 15 15).wellFormed = true ∧ (Instr.seReg 0 15).wellFormed = true := by decide

theorem witness_EncodeOfDecodeIsTheWord : decode false 0x5121 = .instr (.seReg 1 2) ∧
    (fieldOp 0x5121 = 5 ∨ fieldOp 0x5121 = 9) ∧ fieldN 0x5121 ≠ 0 ∧
    encode (.seReg 1 2) = (0x5121 : Word) &&& 0xFFF0 ∧ encode (.sneReg 1 2) = 0x9120 := by decide

theorem witness_IllegalWordsAreExactlyThese : decode true 0x900F = .illegal 0x900F ∧ fieldOp 0x900F = 9 ∧
    fieldN 0x900F ≠ 0 ∧ decode false 0xFFFF = .illegal 0xFFFF ∧ fieldKK 0xFFFF = 0xFF := by decide

/-- F2: with nothing loaded the first step from reset faults. -/
theorem witness_FaultsArePrecise : State.reset.status = .running ∧
    step State.reset = .next (State.reset.setStatus (.faulted (.undefined 0))) := ⟨rfl, rfl⟩

theorem witness_FaultedMachineIsTerminal : dead.status = .faulted .stackOverflow ∧
    (∀ t ∈ [Transaction.step, Transaction.tickTimers], t = .step ∨ t = .tickTimers) := by decide

theorem witness_StepKeepsTheInvariant : Inv State.reset ∧ ∃ t, step State.reset = .next t := ⟨reset_inv, _, rfl⟩

/-- The largest pc (F20) with a full stack of the largest return addresses (F10). -/
def atBounds : State := (State.reset.setPc 0x10FE).setStack (List.replicate 16 0x1000)

theorem witness_Inv_bounds : Inv atBounds where
  cfgOk := by decide
  memOk := by decide
  depth := by decide
  pcLe := by decide
  retLe := fun w h => by rw [List.eq_of_mem_replicate (show w ∈ List.replicate 16 (0x1000 : Word) from h)]; decide
  waitAt := fun x h => nomatch (show Status.running = .waiting x from h)

/-- A machine that waits at the last word of memory. -/
def waiting : State := ((State.reset.setPc 4094).putBytes 4094 [0xF3, 0x0A]).setStatus (.waiting 3)

theorem waiting_fetch : waiting.fetchInstr = .ok (.ldVxK 3) := rfl

theorem witness_Inv_waiting : Inv waiting where
  cfgOk := by decide
  memOk := by decide
  depth := by decide
  pcLe := by decide
  retLe := fun w h => nomatch (show w ∈ ([] : List Word) from h)
  waitAt := by
    intro x h
    have hx : (3 : RegIdx) = x := Status.waiting.inj (show Status.waiting 3 = .waiting x from h)
    rw [← hx]
    exact waiting_fetch

theorem witness_EveryHostSequenceKeepsTheInvariant : Config.default.wf = true ∧
    Transaction.legalFrom true [.keyDown 1, .loadRom [0x60, 0x05], .step, .tickTimers, .reset, .loadRom []] = true ∧
    Transaction.legalFrom true [.step, .loadRom []] = false ∧
    ∃ t, runAll [.loadRom [0x60, 0x05], .step] (State.resetWith Config.default ResetDraw.zero 0) = .next t :=
  ⟨by decide, by decide, by decide, _, rfl⟩

theorem witness_exec_answers_next : ∃ t u, exec .cls State.reset = .next t ∧ exec (.ldB 0) State.reset = .next u ∧
    (∀ x, Instr.cls ≠ .skp x ∧ Instr.cls ≠ .sknp x) :=
  ⟨_, _, rfl, rfl, fun _ => ⟨Instr.noConfusion, Instr.noConfusion⟩⟩

/-- Both arms: an instruction that leaves ST as it is, and LD ST, whose answer is the same from either ST. -/
theorem witness_NoInstructionReadsTheSoundTimer :
    (∃ t t', exec (.ldVxDT 1) State.reset = .next t ∧ exec (.ldVxDT 1) (State.reset.setST 5) = .next t' ∧ t'.st = 5 ∧
      t.st = 0) ∧
    (∃ t, exec (.ldSTVx 1) State.reset = .next t ∧ exec (.ldSTVx 1) (State.reset.setST 5) = .next t) :=
  ⟨⟨_, _, rfl, rfl, rfl, rfl⟩, _, rfl, rfl⟩

theorem witness_SysGoesOnOrFaultsByPolicy : State.reset.cfg.sysPolicy = .fault ∧
    (withCfg (fun c => { c with sysPolicy := .nop }) State.reset).cfg.sysPolicy = .nop := by decide

theorem witness_RetPopsThePc : (State.reset.setStack [0x206]).stack = [] ++ [0x206] ∧
    (deep 16).stack = (deep 15).stack ++ [0x202] ∧ State.reset.stack = [] := by decide

theorem witness_CallPushesTheNextPcAndJumps : (deep 15).stack.length < 16 ∧ (deep 16).stack.length = 16 ∧
    State.reset.stack.length < 16 := by decide

theorem witness_RetAfterCallComesBack : (deep 15).stack.length < 16 ∧
    ∃ t : State, exec (.call 0x300) (deep 15) = .next t ∧ (t.setV 0 9).stack = t.stack := ⟨by decide, _, rfl, rfl⟩

theorem witness_ImmediateSkipsCompare : (vs [(15, 0xFF)]).getV 15 = 0xFF ∧ (vs [(15, 0xFF)]).getV 0 ≠ 0xFF := by decide

theorem witness_RegisterSkipsCompare : State.reset.getV 3 = State.reset.getV 3 ∧
    (vs [(15, 1)]).getV 0 ≠ (vs [(15, 1)]).getV 15 := by decide

theorem witness_JpV0AddsTheOffset : State.reset.cfg.jumpOffsetReg = .v0 ∧
    (withCfg (fun c => { c with jumpOffsetReg := .vx }) State.reset).cfg.jumpOffsetReg = .vx := by decide

/-- LogicWorksBitByBit: both values of the parameter, x = 15 and x ≠ 15. -/
theorem witness_LogicWorksBitByBit : State.reset.cfg.logicVfReset = false ∧
    (withCfg (fun c => { c with logicVfReset := true }) State.reset).cfg.logicVfReset = true ∧
    (((Instr.orReg 15 0 = .orReg 15 0) ∧ or = or) ∨ (Instr.orReg 15 0 = .andReg 15 0 ∧ or = and) ∨
      (Instr.orReg 15 0 = .xorReg 15 0 ∧ or = xor)) := ⟨by decide, by decide, .inl ⟨rfl, rfl⟩⟩

/-- AddRegAddsWithCarry, SubtractionsSetNotBorrow: sums 255 and 256, equal operands, x = 15. -/
theorem witness_arithmetic_at_the_ends :
    V (run 0x8014 (vs [(0, 0xFE), (1, 1)])) 15 = some 0 ∧ V (run 0x8014 (vs [(0, 0xFF), (1, 1)])) 15 = some 1 ∧
    V (run 0x8F17 (vs [(15, 0), (1, 0xFF)])) 15 = some 1 ∧ (0 : RegIdx) ≠ 15 := by decide

theorem witness_ShiftsMoveByOneBit : (State.reset.cfg.shiftSource = .vx ∧ (0 : Byte) = State.reset.getV 0) ∧
    ((withCfg (fun c => { c with shiftSource := .vy }) (vs [(1, 0xFF)])).cfg.shiftSource = .vy ∧
      (0xFF : Byte) = (withCfg (fun c => { c with shiftSource := .vy }) (vs [(1, 0xFF)])).getV 1) := by decide

theorem witness_DrwXorsTheSprite : (15 : Fin 16) ≠ 0 ∧ (1 : Fin 16) ≠ 0 ∧
    ((State.reset.setI 4080).cfg.readSeqBound = .legacy16 ∧ (State.reset.setI 4080).i.toNat ≤ 4080) ∧
    ((exactCfg.setI 4081).cfg.readSeqBound = .exact ∧ (exactCfg.setI 4081).i.toNat + (15 : Fin 16).val ≤ 4096) ∧
    ((exactCfg.setI 4095).cfg.readSeqBound = .exact ∧ (exactCfg.setI 4095).i.toNat + (1 : Fin 16).val ≤ 4096) := by decide

theorem witness_DrwFaultsWhereItCannotDraw : State.reset.cfg.drawZeroHeight = .fault ∧
    (withCfg (fun c => { c with drawZeroHeight := .empty }) State.reset).cfg.drawZeroHeight = .empty ∧
    ((State.reset.setI 4081).cfg.readSeqBound = .legacy16 ∧ 4080 < (State.reset.setI 4081).i.toNat) ∧
    ((exactCfg.setI 4082).cfg.readSeqBound = .exact ∧ 4096 < (exactCfg.setI 4082).i.toNat + (15 : Fin 16).val) := by decide

theorem witness_KeySkipsReadTheSnapshot : ((vs [(5, 15)]).getV 5).toNat ≤ 15 ∧
    15 < ((vs [(5, 16)]).getV 5).toNat ∧ (vs [(5, 16)]).cfg.keyIndexWide = .fault ∧
    (withCfg (fun c => { c with keyIndexWide := .lowNibble }) (vs [(5, 0xFF)])).cfg.keyIndexWide = .lowNibble := by decide

theorem witness_WaitForKeyUntilAKeyDownEdge : (State.reset.setStatus (.waiting 15)).status = .waiting 15 ∧
    (∀ x, State.reset.status ≠ .waiting x) ∧ (∀ x, dead.status ≠ .waiting x) := by decide

theorem witness_ticks : (∀ f, State.reset.status ≠ .faulted f) ∧
    (∀ f, (State.reset.setStatus (.waiting 0)).status ≠ .faulted f) ∧ dead.status = .faulted .stackOverflow ∧
    (State.ticks 3 ((State.reset.setDT 3).setST 1)).dt = 0 := by
  refine ⟨?_, ?_, by decide, by decide⟩ <;> intro f h <;> cases h

theorem witness_LdFPointsAtTheGlyph : ((vs [(2, 15)]).getV 2).toNat ≤ 15 ∧ 15 < ((vs [(2, 16)]).getV 2).toNat ∧
    (vs [(2, 16)]).cfg.fontDigitWide = .fault ∧
    (withCfg (fun c => { c with fontDigitWide := .lowNibble }) (vs [(2, 0xFF)])).cfg.fontDigitWide = .lowNibble := by decide

theorem witness_LdBStoresTheDigits : (State.reset.setI 4093).memWf = true ∧ (State.reset.setI 4093).i.toNat + 2 ≤ 4095 ∧
    4095 < (State.reset.setI 4094).i.toNat + 2 := by decide

/-- StoreRegsStoresTheBlock and LoadRegsLoadsTheBlock: the last block that fits and the first that does not, and each
value of LOADSTORE_I. -/
theorem witness_block_moves : (State.reset.setI 4080).memWf = true ∧
    (State.reset.setI 4080).i.toNat + (15 : RegIdx).val ≤ 4095 ∧ 4095 < (State.reset.setI 4081).i.toNat + (15 : RegIdx).val ∧
    ((State.reset.setI 4080).cfg.readSeqBound = .legacy16 ∧ (State.reset.setI 4080).i.toNat ≤ 4080) ∧
    ((State.reset.setI 4081).cfg.readSeqBound = .legacy16 ∧ 4080 < (State.reset.setI 4081).i.toNat) ∧
    ((exactCfg.setI 4095).cfg.readSeqBound = .exact ∧ (exactCfg.setI 4095).i.toNat + (0 : RegIdx).val ≤ 4095) ∧
    ((exactCfg.setI 4096).cfg.readSeqBound = .exact ∧ 4095 < (exactCfg.setI 4096).i.toNat + (0 : RegIdx).val) ∧
    State.reset.cfg.loadStoreI = .unchanged ∧
    (withCfg (fun c => { c with loadStoreI := .plusXPlus1 }) State.reset).cfg.loadStoreI = .plusXPlus1 ∧
    (withCfg (fun c => { c with loadStoreI := .plusX }) State.reset).cfg.loadStoreI = .plusX := by decide

theorem witness_MemoryRoundTrip : State.reset.memWf = true ∧ (4095 : Word).toNat ≤ 4095 ∧ 4096 ≤ (4096 : Word).toNat := by
  decide

/-- P6: LD [I], V1 overwrites the next instruction; with another I the block covers one of its bytes, or none. -/
def selfMod (i : Word) : State := ((vs [(0, 0x12), (1, 0x0A)]).setI i).setPc 0x208

/-- The word that a fetch right after the instruction gives. -/
def nextWord (i : Instr) (s : State) : Option Word := (after (exec i s)).bind fun t => t.fetchWord.toOption

/-- The premises: canonical memory, the last addresses at which a block and a word fit, and a next state, at whose pc
0x20A a block at 0x20A covers both bytes, one at 0x209 or 0x20B one of them, and one at 0x20C none. -/
theorem witness_StoresAreSeenByTheNextFetch : (selfMod 0x20A).memWf = true ∧
    (selfMod 4094).i.toNat + (1 : RegIdx).val ≤ 4095 ∧ (selfMod 4093).i.toNat + 2 ≤ 4095 ∧
    (State.reset.setPc 4094).pc.toNat + 1 ≤ 4095 ∧
    pcOf (after (exec (.storeRegs 1) (selfMod 0x20C))) = some 0x20A ∧
    pcOf (after (exec (.ldB 0) (selfMod 0x20C))) = some 0x20A := by decide

theorem test_store_then_fetch : nextWord (.storeRegs 1) (selfMod 0x20A) = some 0x120A ∧
    nextWord (.storeRegs 1) (selfMod 0x209) = some 0x0A00 ∧
    nextWord (.storeRegs 1) (selfMod 0x20B) = some 0x0012 := by decide

theorem test_bcd_then_fetch : nextWord (.ldB 0) (selfMod 0x20A) = some 0x0001 ∧
    nextWord (.ldB 0) (selfMod 0x209) = some 0x0108 ∧ nextWord (.ldB 0) (selfMod 0x20C) = some 0 := by decide

theorem witness_PushAndPopMoveTheTop : (deep 15).stack.length < 16 ∧ (deep 16).stack.length = 16 ∧
    (deep 1).stack = [] ++ [0x202] ∧ State.reset.stack = [] := by decide

theorem witness_StackIsLastInFirstOut : (deep 0).stack.length + [(1 : Word), 2].length ≤ 16 ∧
    (deep 14).stack.length + [(1 : Word), 2].length ≤ 16 ∧ (deep 15).stack.length ≤ 16 ∧
    16 < (deep 15).stack.length + [(1 : Word), 2].length := by decide

end Sys2Proof.Tests
end

/-! # The state: what each operation and each instruction can do to it (10_state.md) -/

namespace Sys2Proof.Machine

/-! ## Operations that succeed -/

theorem map_eq_ok {α β : Type} {r : Except Fault α} {g : α → β} {b : β} (h : r.map g = .ok b) :
    ∃ a, r = .ok a ∧ g a = b := by
  cases r with
  | error f => cases h
  | ok a => exact ⟨a, rfl, Except.ok.inj h⟩

namespace State

/-- A push that succeeds found room, and appended the value. -/
theorem push_eq_ok {s t : State} {w : Word} (h : s.push w = .ok t) :
    s.stack.length < 16 ∧ t = s.setStack (s.stack ++ [w]) := by
  by_cases hl : s.stack.length < 16
  · rw [push_ok hl] at h
    exact ⟨hl, (Except.ok.inj h).symm⟩
  · rw [push_error (by omega)] at h
    cases h

/-- A pop that succeeds found a top entry, and removed it. -/
theorem pop_eq_ok {s t : State} {w : Word} (h : s.pop = .ok (w, t)) :
    ∃ l, s.stack = l ++ [w] ∧ t = s.setStack l := by
  rcases List.eq_nil_or_concat s.stack with hs | ⟨l, w', hs⟩
  · rw [pop_nil hs] at h
    cases h
  · rw [List.concat_eq_append] at hs
    rw [pop_concat hs] at h
    cases h
    exact ⟨l, hs, rfl⟩

/-- A store that succeeds lies inside memory. -/
theorem writeSeq_eq_ok {s t : State} {w : Word} {bs : List Byte} (h : s.writeSeq w bs = .ok t) :
    w.toNat + bs.length ≤ 4096 ∧ t = s.putBytes w.toNat bs := by
  by_cases hl : w.toNat + bs.length ≤ 4096
  · rw [writeSeq_ok hl] at h
    exact ⟨hl, (Except.ok.inj h).symm⟩
  · rw [writeSeq_error (by omega)] at h
    cases h

/-- An instruction is found only where a word can be fetched, and the word decodes to it. -/
theorem fetchInstr_eq_ok {s : State} {i : Instr} (h : s.fetchInstr = .ok i) :
    ∃ w, s.fetchWord = .ok w ∧ decode s.cfg.strict59 w = .instr i := by
  cases hw : s.fetchWord with
  | error f =>
    rw [fetchInstr_fault hw] at h
    cases h
  | ok w =>
    refine ⟨w, rfl, ?_⟩
    cases hd : decode s.cfg.strict59 w with
    | instr j =>
      rw [fetchInstr_ok hw hd] at h
      rw [Except.ok.inj h]
    | illegal w' =>
      rw [fetchInstr_illegal hw hd] at h
      cases h

theorem pc_le_of_fetchInstr {s : State} {i : Instr} (h : s.fetchInstr = .ok i) : s.pc.toNat ≤ 4094 := by
  obtain ⟨w, hw, -⟩ := fetchInstr_eq_ok h
  have := (fetchWord_eq_ok hw).1
  omega

end State

/-! ## What the instructions that can fault do

Each of them answers its start with a faulted status, or the state of its completion. -/

/-- `t` is `s` with a fault raised in it: the status is faulted and nothing else is written
(60_exceptions.md R272). -/
def FaultedFrom (s t : State) : Prop := ∃ f, t = s.setStatus (.faulted f)

theorem faultedFrom_of_raise {s t : State} {f : Fault} (h : raise f s = .next t) : FaultedFrom s t :=
  ⟨f, (Host.Outcome.next.inj h).symm⟩

/-- The end of a step whose checks gave `r`: a fault, or the completion of the value that `r` holds. -/
theorem commit_map_cases {α : Type} {s t : State} {r : Except Fault α} {g : α → State}
    (h : s.commit (r.map g) = .next t) : FaultedFrom s t ∨ ∃ a, r = .ok a ∧ t = g a := by
  rcases commit_eq_next.mp h with hok | ⟨f, -, ht⟩
  · obtain ⟨a, ha, hg⟩ := map_eq_ok hok
    exact .inr ⟨a, ha, hg.symm⟩
  · exact .inl ⟨f, ht⟩

theorem execSys_cases {nnn : Addr12} {s t : State} (h : execSys nnn s = .next t) :
    FaultedFrom s t ∨ t = s.advance := by
  unfold execSys at h
  split at h
  · exact .inl (faultedFrom_of_raise h)
  · exact .inr (Host.Outcome.next.inj h).symm

theorem execRet_cases {s t : State} (h : execRet s = .next t) :
    FaultedFrom s t ∨ ∃ l w, s.stack = l ++ [w] ∧ t = (s.setStack l).setPc w := by
  refine (commit_map_cases h).imp_right ?_
  rintro ⟨⟨w, u⟩, hpop, rfl⟩
  obtain ⟨l, hs, rfl⟩ := State.pop_eq_ok hpop
  exact ⟨l, w, hs, rfl⟩

theorem execCall_cases {nnn : Addr12} {s t : State} (h : execCall nnn s = .next t) :
    FaultedFrom s t ∨
      (s.stack.length < 16 ∧ t = (s.setStack (s.stack ++ [s.pc + 2])).setPc (addrOf nnn)) := by
  refine (commit_map_cases h).imp_right ?_
  rintro ⟨u, hpush, rfl⟩
  obtain ⟨hl, rfl⟩ := State.push_eq_ok hpush
  exact ⟨hl, rfl⟩

theorem execDrw_cases {x y : RegIdx} {n : Fin 16} {s t : State} (h : execDrw x y n s = .next t) :
    FaultedFrom s t ∨ (n = 0 ∧ t = (s.setVF 0).advance) ∨
      (n ≠ 0 ∧ ∃ p, Sprite.new (s.bytesFrom s.i.toNat n.val) n.val = .ok p ∧
        t = (s.drawSprite (s.getV x) (s.getV y) p).advance) := by
  unfold execDrw at h
  split at h
  case isTrue hn =>
    split at h
    · exact .inl (faultedFrom_of_raise h)
    · exact .inr (.inl ⟨hn, (Host.Outcome.next.inj h).symm⟩)
  case isFalse hn =>
    split at h
    case h_1 => exact .inl (faultedFrom_of_raise h)
    case h_2 rows hrows =>
      refine (commit_map_cases h).imp_right ?_
      rintro ⟨p, hp, rfl⟩
      rw [State.readSeq_eq_ok hrows] at hp
      exact .inr ⟨hn, p, hp, rfl⟩

theorem execSkp_cases {x : RegIdx} {s t : State} (h : execSkp x s = .next t) :
    FaultedFrom s t ∨ ∃ k, s.keyIndex (encode (.skp x)) x = .ok k ∧ t = s.skipIf (s.keyDownAt k) :=
  commit_map_cases h

theorem execSknp_cases {x : RegIdx} {s t : State} (h : execSknp x s = .next t) :
    FaultedFrom s t ∨ ∃ k, s.keyIndex (encode (.sknp x)) x = .ok k ∧ t = s.skipIf (!s.keyDownAt k) :=
  commit_map_cases h

theorem execLdF_cases {x : RegIdx} {s t : State} (h : execLdF x s = .next t) :
    FaultedFrom s t ∨
      ∃ d, s.fontDigit (encode (.ldF x)) x = .ok d ∧ t = (s.setI (s.glyphAddr d)).advance :=
  commit_map_cases h

theorem execLdB_cases {x : RegIdx} {s t : State} (h : execLdB x s = .next t) :
    FaultedFrom s t ∨
      (s.i.toNat + 3 ≤ 4096 ∧ t = (s.putBytes s.i.toNat (bcdDigits (s.getV x))).advance) := by
  refine (commit_map_cases h).imp_right ?_
  rintro ⟨u, hu, rfl⟩
  obtain ⟨hl, rfl⟩ := State.writeSeq_eq_ok hu
  exact ⟨hl, rfl⟩

theorem execStoreRegs_cases {x : RegIdx} {s t : State} (h : execStoreRegs x s = .next t) :
    FaultedFrom s t ∨
      (s.i.toNat + (x.val + 1) ≤ 4096 ∧
        t = ((s.putBytes s.i.toNat (s.regsUpTo x)).setI (s.indexAfterBlock x)).advance) := by
  refine (commit_map_cases h).imp_right ?_
  rintro ⟨u, hu, rfl⟩
  obtain ⟨hl, rfl⟩ := State.writeSeq_eq_ok hu
  rw [State.length_regsUpTo] at hl
  exact ⟨hl, rfl⟩

theorem execLoadRegs_cases {x : RegIdx} {s t : State} (h : execLoadRegs x s = .next t) :
    FaultedFrom s t ∨
      t = ((s.setRegs (s.bytesFrom s.i.toNat (x.val + 1))).setI (s.indexAfterBlock x)).advance := by
  refine (commit_map_cases h).imp_right ?_
  rintro ⟨b, hb, rfl⟩
  rw [State.readSeq_eq_ok hb]

/-! ## How far pc goes -/

theorem toNat_add_two {w : Word} (hw : w.toNat ≤ 4094) : (w + 2).toNat = w.toNat + 2 :=
  BitVec.toNat_add_of_lt (by simp; omega)

theorem toNat_add_four {w : Word} (hw : w.toNat ≤ 4094) : (w + 4).toNat = w.toNat + 4 :=
  BitVec.toNat_add_of_lt (by simp; omega)

theorem addrOf_toNat_lt (nnn : Addr12) : (addrOf nnn).toNat < 4096 := by
  rw [addrOf, BitVec.toNat_setWidth]
  have := nnn.isLt
  omega

/-- JP V0 goes to 0xFFF + 0xFF = 0x10FE at most (10_state.md R27). -/
theorem addrOf_add_wordOf_le (nnn : Addr12) (b : Byte) : (addrOf nnn + wordOf b).toNat ≤ 0x10FE := by
  have ha := addrOf_toNat_lt nnn
  have hb := b.isLt
  rw [BitVec.toNat_add, wordOf, BitVec.toNat_setWidth]
  omega

/-! ## The invariant under each operation -/

namespace Inv

variable {s t : State}

/-- The invariant is about the parameters, memory, the stack, pc and the status only. -/
theorem congr (hi : Inv s) (hc : t.cfg = s.cfg) (hm : t.mem = s.mem) (hs : t.stack = s.stack)
    (hp : t.pc = s.pc) (hst : t.status = s.status) : Inv t where
  cfgOk := hc ▸ hi.cfgOk
  memOk := (State.memWf_congr hc hm).trans hi.memOk
  depth := hs ▸ hi.depth
  pcLe := hp ▸ hi.pcLe
  retLe := hs ▸ hi.retLe
  waitAt x hx := (State.fetchInstr_congr hc hp hm).trans (hi.waitAt x (hst ▸ hx))

theorem fault (hi : Inv s) (f : Fault) : Inv (s.setStatus (.faulted f)) where
  cfgOk := hi.cfgOk
  memOk := hi.memOk
  depth := hi.depth
  pcLe := hi.pcLe
  retLe := hi.retLe
  waitAt _ hx := nomatch (show Status.faulted f = .waiting _ from hx)

theorem run (hi : Inv s) : Inv (s.setStatus .running) where
  cfgOk := hi.cfgOk
  memOk := hi.memOk
  depth := hi.depth
  pcLe := hi.pcLe
  retLe := hi.retLe
  waitAt _ hx := nomatch (show Status.running = .waiting _ from hx)

theorem wait (hi : Inv s) {x : RegIdx} (hf : s.fetchInstr = .ok (.ldVxK x)) :
    Inv (s.setStatus (.waiting x)) where
  cfgOk := hi.cfgOk
  memOk := hi.memOk
  depth := hi.depth
  pcLe := hi.pcLe
  retLe := hi.retLe
  waitAt y hy := by
    obtain rfl : x = y := Status.waiting.inj (show Status.waiting x = .waiting y from hy)
    exact hf

theorem setStack (hi : Inv s) {l : List Word} (hl : l.length ≤ 16) (hw : ∀ w ∈ l, w.toNat ≤ 0x1000) :
    Inv (s.setStack l) where
  cfgOk := hi.cfgOk
  memOk := hi.memOk
  depth := hl
  pcLe := hi.pcLe
  retLe := hw
  waitAt := hi.waitAt

/-- A jump of a running machine; a waiting one has to stay where it is. -/
theorem setPc (hi : Inv s) (hr : s.status = .running) {w : Word} (hw : w.toNat ≤ 0x10FE) :
    Inv (s.setPc w) where
  cfgOk := hi.cfgOk
  memOk := hi.memOk
  depth := hi.depth
  pcLe := hw
  retLe := hi.retLe
  waitAt _ hx := nomatch (hr.symm.trans hx : Status.running = .waiting _)

/-- A store of a running machine inside memory; in a waiting one it could overwrite the instruction at pc. -/
theorem putBytes (hi : Inv s) (hr : s.status = .running) {a : Nat} {bs : List Byte}
    (ha : a + bs.length ≤ 4096) : Inv (s.putBytes a bs) where
  cfgOk := hi.cfgOk
  memOk := State.memWf_putBytes hi.memOk ha
  depth := hi.depth
  pcLe := hi.pcLe
  retLe := hi.retLe
  waitAt _ hx := nomatch (hr.symm.trans hx : Status.running = .waiting _)

theorem advance (hi : Inv s) (hr : s.status = .running) (hp : s.pc.toNat ≤ 4094) : Inv s.advance := by
  refine hi.setPc hr ?_
  rw [toNat_add_two hp]
  omega

/-- The same of a state that has only other registers, timers, keys or another display. -/
theorem advance_of_eq (hi : Inv s) (hr : s.status = .running) (hp : s.pc.toNat ≤ 4094) (hc : t.cfg = s.cfg)
    (hm : t.mem = s.mem) (hs : t.stack = s.stack) (hpc : t.pc = s.pc) (hst : t.status = s.status) :
    Inv t.advance :=
  (hi.congr hc hm hs hpc hst).advance (hst.trans hr) (hpc ▸ hp)

theorem skipIf (hi : Inv s) (hr : s.status = .running) (hp : s.pc.toNat ≤ 4094) (c : Bool) :
    Inv (s.skipIf c) := by
  refine hi.setPc hr ?_
  split
  · rw [toNat_add_four hp]
    omega
  · rw [toNat_add_two hp]
    omega

/-- RET takes the top return address, which is at most 0x1000, to pc. -/
theorem ret (hi : Inv s) (hr : s.status = .running) {l : List Word} {w : Word} (hs : s.stack = l ++ [w]) :
    Inv ((s.setStack l).setPc w) := by
  have hdepth := hi.depth
  have hret := hi.retLe
  simp only [hs, List.length_append, List.length_singleton, List.mem_append, List.mem_singleton] at hdepth hret
  have hw := hret w (.inr rfl)
  exact (hi.setStack (by omega) fun v hv => hret v (.inl hv)).setPc hr (by omega)

/-- CALL pushes pc + 2, which is at most 0x1000 because the CALL was fetched at 4094 or below. -/
theorem call (hi : Inv s) (hr : s.status = .running) (hp : s.pc.toNat ≤ 4094) (hl : s.stack.length < 16)
    (nnn : Addr12) : Inv ((s.setStack (s.stack ++ [s.pc + 2])).setPc (addrOf nnn)) := by
  have hpush : Inv (s.setStack (s.stack ++ [s.pc + 2])) := by
    refine hi.setStack (by simpa using hl) fun w hw => ?_
    rcases List.mem_append.mp hw with hw | hw
    · exact hi.retLe w hw
    · rw [List.mem_singleton.mp hw, toNat_add_two hp]
      omega
  have ha := addrOf_toNat_lt nnn
  exact hpush.setPc hr (by omega)

theorem of_faultedFrom (hi : Inv s) (h : FaultedFrom s t) : Inv t := by
  obtain ⟨f, rfl⟩ := h
  exact hi.fault f

end Inv

/-- An instruction that a running machine has fetched keeps the invariant. -/
theorem exec_keeps_inv {i : Instr} {s t : State} (hi : Inv s) (hr : s.status = .running)
    (hf : s.fetchInstr = .ok i) (h : exec i s = .next t) : Inv t := by
  have hp := State.pc_le_of_fetchInstr hf
  cases i with
  | cls | ldByte | addByte | ldReg | addReg | subReg | shr | subnReg | shl | ldI | rnd | ldVxDT | ldDTVx | ldSTVx
  | addI =>
    obtain rfl := Host.Outcome.next.inj h
    exact hi.advance_of_eq hr hp rfl rfl rfl rfl rfl
  | orReg x y | andReg x y | xorReg x y =>
    obtain rfl := Host.Outcome.next.inj h
    rw [State.setLogic_eq]
    split <;> exact hi.advance_of_eq hr hp rfl rfl rfl rfl rfl
  | seByte | sneByte | seReg | sneReg =>
    obtain rfl := Host.Outcome.next.inj h
    exact hi.skipIf hr hp _
  | jp nnn =>
    obtain rfl := Host.Outcome.next.inj h
    have ha := addrOf_toNat_lt nnn
    exact hi.setPc hr (by omega)
  | jpV0 nnn =>
    obtain rfl := Host.Outcome.next.inj h
    exact hi.setPc hr (addrOf_add_wordOf_le nnn _)
  | ldVxK x =>
    obtain rfl := Host.Outcome.next.inj h
    exact hi.wait hf
  | sys =>
    rcases execSys_cases h with hfault | rfl
    · exact hi.of_faultedFrom hfault
    · exact hi.advance hr hp
  | ret =>
    rcases execRet_cases h with hfault | ⟨l, w, hs, rfl⟩
    · exact hi.of_faultedFrom hfault
    · exact hi.ret hr hs
  | call nnn =>
    rcases execCall_cases h with hfault | ⟨hl, rfl⟩
    · exact hi.of_faultedFrom hfault
    · exact hi.call hr hp hl nnn
  | drw =>
    rcases execDrw_cases h with hfault | ⟨-, rfl⟩ | ⟨-, p, -, rfl⟩
    · exact hi.of_faultedFrom hfault
    · exact hi.advance_of_eq hr hp rfl rfl rfl rfl rfl
    · exact hi.advance_of_eq hr hp rfl rfl rfl rfl rfl
  | skp =>
    rcases execSkp_cases h with hfault | ⟨k, -, rfl⟩
    · exact hi.of_faultedFrom hfault
    · exact hi.skipIf hr hp _
  | sknp =>
    rcases execSknp_cases h with hfault | ⟨k, -, rfl⟩
    · exact hi.of_faultedFrom hfault
    · exact hi.skipIf hr hp _
  | ldF =>
    rcases execLdF_cases h with hfault | ⟨d, -, rfl⟩
    · exact hi.of_faultedFrom hfault
    · exact hi.advance_of_eq hr hp rfl rfl rfl rfl rfl
  | ldB x =>
    rcases execLdB_cases h with hfault | ⟨hl, rfl⟩
    · exact hi.of_faultedFrom hfault
    · exact (hi.putBytes hr hl).advance hr hp
  | storeRegs x =>
    rcases execStoreRegs_cases h with hfault | ⟨hl, rfl⟩
    · exact hi.of_faultedFrom hfault
    · have hstore : Inv (s.putBytes s.i.toNat (s.regsUpTo x)) :=
        hi.putBytes hr (by rwa [State.length_regsUpTo])
      exact hstore.advance_of_eq hr hp rfl rfl rfl rfl rfl
  | loadRegs =>
    rcases execLoadRegs_cases h with hfault | rfl
    · exact hi.of_faultedFrom hfault
    · exact hi.advance_of_eq hr hp (by simp) (by simp) (by simp) (by simp) (by simp)

/-- Settles O15: a step changes nothing, or faults, or runs the instruction it fetched. -/
theorem stepKeepsTheInvariant : Obligations.StepKeepsTheInvariant := by
  intro s s' hi h
  rcases step_cases s with ⟨-, hs⟩ | ⟨-, f, -, hs⟩ | ⟨hr, i, hf, hs⟩
  · obtain rfl := Host.Outcome.next.inj (hs.symm.trans h)
    exact hi
  · obtain rfl := Host.Outcome.next.inj (hs.symm.trans h)
    exact hi.fault f
  · exact exec_keeps_inv hi hr hf (hs.symm.trans h)

/-! ## The invariant under the host's transactions -/

/-- A reset of a machine with allowed parameters meets the invariant: memory and the stack are empty, pc is 0x200. -/
theorem resetWith_inv {c : Config} (hc : c.wf = true) (d : ResetDraw) (n : Nat) :
    Inv (State.resetWith c d n) where
  cfgOk := hc
  memOk := rfl
  depth := Nat.zero_le 16
  pcLe := show (0x200 : Nat) ≤ 0x10FE by decide
  retLe _ hw := absurd hw List.not_mem_nil
  waitAt _ hx := nomatch (show Status.running = .waiting _ from hx)

/-- A tick does nothing, or moves the two timers. -/
theorem State.tickTimers_cases (s : State) :
    s.tickTimers = s ∨ s.tickTimers = (s.setDT (tickDown s.dt)).setST (tickDown s.st) := by
  unfold tickTimers
  split <;> simp

theorem State.keyDown_waiting {s : State} {x : RegIdx} (h : s.status = .waiting x) (k : KeyIdx) :
    s.keyDown k = ((s.pressKey k).setV x (BitVec.ofNat 8 k.val)).advance.setStatus .running := by
  simp [keyDown, h]

theorem State.keyDown_of_not_waiting {s : State} (h : ∀ x, s.status ≠ .waiting x) (k : KeyIdx) :
    s.keyDown k = s.pressKey k := by
  unfold keyDown
  split
  · next x hx => exact absurd hx (h x)
  · rfl
  · rfl

namespace Inv

variable {s : State}

theorem tickTimers (hi : Inv s) : Inv s.tickTimers := by
  rcases s.tickTimers_cases with h | h
  · rwa [h]
  · rw [h]
    exact hi.congr rfl rfl rfl rfl rfl

/-- A key that ends a wait moves a machine that stands at its LD Vx, K, so at 4094 or below. -/
theorem keyDown (hi : Inv s) (k : KeyIdx) : Inv (s.keyDown k) := by
  by_cases h : ∃ x, s.status = .waiting x
  · obtain ⟨x, hx⟩ := h
    have hp := State.pc_le_of_fetchInstr (hi.waitAt x hx)
    rw [State.keyDown_waiting hx]
    exact hi.run.advance_of_eq (t := ((s.pressKey k).setV x (BitVec.ofNat 8 k.val)).setStatus .running)
      rfl hp rfl rfl rfl rfl rfl
  · rw [State.keyDown_of_not_waiting (not_exists.mp h)]
    exact hi.congr rfl rfl rfl rfl rfl

theorem loadRom (hi : Inv s) (hr : s.status = .running) (rom : List Byte) : Inv (s.loadRom rom) := by
  unfold State.loadRom
  split
  · exact hi.fault _
  · exact (hi.putBytes hr (by omega)).setPc hr (by decide)

end Inv

/-- What a sequence of transactions keeps: the invariant, and a machine runs as long as it is fresh, that is, as long
as there was neither a step nor a load since the last reset. -/
def InvFrom (fresh : Bool) (s : State) : Prop := Inv s ∧ (fresh = true → s.status = .running)

/-- One transaction of a legal sequence keeps `InvFrom`. -/
theorem apply_keeps_invFrom {t : Transaction} {ts : List Transaction} {fresh : Bool} {s u : State}
    (hs : InvFrom fresh s) (hl : Transaction.legalFrom fresh (t :: ts) = true) (h : t.apply s = .next u) :
    ∃ fresh', InvFrom fresh' u ∧ Transaction.legalFrom fresh' ts = true := by
  obtain ⟨hi, hrun⟩ := hs
  cases t with
  | reset =>
    obtain rfl := Host.Outcome.next.inj h
    exact ⟨true, ⟨resetWith_inv hi.cfgOk _ _, fun _ => rfl⟩, hl⟩
  | loadRom rom =>
    obtain rfl := Host.Outcome.next.inj h
    obtain ⟨hfresh, hts⟩ := Bool.and_eq_true_iff.mp hl
    exact ⟨false, ⟨hi.loadRom (hrun hfresh) rom, Bool.noConfusion⟩, hts⟩
  | step => exact ⟨false, ⟨stepKeepsTheInvariant s u hi h, Bool.noConfusion⟩, hl⟩
  | tickTimers =>
    obtain rfl := Host.Outcome.next.inj h
    refine ⟨fresh, ⟨hi.tickTimers, fun hfresh => ?_⟩, hl⟩
    rcases s.tickTimers_cases with ht | ht <;> exact (congrArg State.status ht).trans (hrun hfresh)
  | setKeys k =>
    obtain rfl := Host.Outcome.next.inj h
    exact ⟨fresh, ⟨hi.congr rfl rfl rfl rfl rfl, hrun⟩, hl⟩
  | keyDown k =>
    obtain rfl := Host.Outcome.next.inj h
    refine ⟨fresh, ⟨hi.keyDown k, fun hfresh => ?_⟩, hl⟩
    have hr := hrun hfresh
    rw [State.keyDown_of_not_waiting (fun x hx => nomatch (hr.symm.trans hx : Status.running = .waiting x))]
    exact hr

theorem runAll_cons_eq_next {t : Transaction} {ts : List Transaction} {s s' : State}
    (h : runAll (t :: ts) s = .next s') : ∃ u, t.apply s = .next u ∧ runAll ts u = .next s' := by
  unfold runAll at h
  split at h
  · next u hu => exact ⟨u, hu, h⟩
  · cases h
  · cases h

/-- Every legal sequence keeps the invariant, from any state that meets `InvFrom`. -/
theorem runAll_keeps_inv {ts : List Transaction} {fresh : Bool} {s s' : State} (hs : InvFrom fresh s)
    (hl : Transaction.legalFrom fresh ts = true) (h : runAll ts s = .next s') : Inv s' := by
  induction ts generalizing fresh s with
  | nil =>
    obtain rfl := Host.Outcome.next.inj h
    exact hs.1
  | cons t ts ih =>
    obtain ⟨u, hu, h⟩ := runAll_cons_eq_next h
    obtain ⟨fresh', hs', hl'⟩ := apply_keeps_invFrom hs hl hu
    exact ih hs' hl' h

/-- Settles O16, by induction on the sequence, from the reset. -/
theorem everyHostSequenceKeepsTheInvariant : Obligations.EveryHostSequenceKeepsTheInvariant :=
  fun _ d n _ _ hc hl h => runAll_keeps_inv ⟨resetWith_inv hc d n, fun _ => rfl⟩ hl h

/-! ## Frames: what each operation leaves unchanged -/

namespace Frame

variable {l l' : List Part} {s t u : State}

theorem mono (h : Frame l s t) (hl : l ⊆ l') : Frame l' s t := fun p hp => h p fun hm => hp (hl hm)

/-- Two changes in a row change the parts of either. -/
theorem trans (h : Frame l s t) (h' : Frame l' t u) : Frame (l ++ l') s u := by
  intro p hp
  obtain ⟨hl, hl'⟩ := not_or.mp (mt List.mem_append.mpr hp)
  have h₁ := h p hl
  have h₂ := h' p hl'
  cases p with
  | regs | memory | keys => exact fun k => (h₂ k).trans (h₁ k)
  | display => exact fun c r => (h₂ c r).trans (h₁ c r)
  | index | pc | stack | delay | sound | status | config | draws => exact Eq.trans h₂ h₁

theorem setV (s : State) (x : RegIdx) (b : Byte) : Frame [.regs] s (s.setV x b) := by
  intro p hp
  cases p <;> simp_all [Part.same]

theorem setRegs (s : State) (bs : List Byte) : Frame [.regs] s (s.setRegs bs) := by
  intro p hp
  cases p <;> simp_all [Part.same]

theorem setI (s : State) (w : Word) : Frame [.index] s (s.setI w) := by
  intro p hp
  cases p <;> simp_all [Part.same]

theorem setPc (s : State) (w : Word) : Frame [.pc] s (s.setPc w) := by
  intro p hp
  cases p <;> simp_all [Part.same]

theorem setStack (s : State) (l : List Word) : Frame [.stack] s (s.setStack l) := by
  intro p hp
  cases p <;> simp_all [Part.same]

theorem setDT (s : State) (b : Byte) : Frame [.delay] s (s.setDT b) := by
  intro p hp
  cases p <;> simp_all [Part.same]

theorem setST (s : State) (b : Byte) : Frame [.sound] s (s.setST b) := by
  intro p hp
  cases p <;> simp_all [Part.same]

theorem putBytes (s : State) (a : Nat) (bs : List Byte) : Frame [.memory] s (s.putBytes a bs) := by
  intro p hp
  cases p <;> simp_all [Part.same]

theorem setFb (s : State) (f : FrameBuf) : Frame [.display] s (s.setFb f) := by
  intro p hp
  cases p <;> simp_all [Part.same]

theorem setKeys (s : State) (k : Vector Bool 16) : Frame [.keys] s (s.setKeys k) := by
  intro p hp
  cases p <;> simp_all [Part.same]

theorem setStatus (s : State) (x : Status) : Frame [.status] s (s.setStatus x) := by
  intro p hp
  cases p <;> simp_all [Part.same]

theorem nextDraw (s : State) : Frame [.draws] s s.nextDraw := by
  intro p hp
  cases p <;> simp_all [Part.same]

theorem advance (s : State) : Frame [.pc] s s.advance := setPc s _

theorem skipIf (s : State) (c : Bool) : Frame [.pc] s (s.skipIf c) := setPc s _

theorem setVF (s : State) (b : Byte) : Frame [.regs] s (s.setVF b) := setV s vf b

theorem setResult (s : State) (x : RegIdx) (r f : Byte) : Frame [.regs] s (s.setResult x r f) :=
  ((setV s x r).trans (setVF _ f)).mono (by simp)

theorem setLogic (s : State) (x : RegIdx) (r : Byte) : Frame [.regs] s (s.setLogic x r) := by
  rw [State.setLogic_eq]
  split
  · exact setResult s x r 0
  · exact setV s x r

theorem drawSprite (s : State) (cx cy : Byte) (p : Sprite) :
    Frame [.display, .regs] s (s.drawSprite cx cy p) := (setFb s _).trans (setVF _ _)

theorem of_faultedFrom (h : FaultedFrom s t) (hl : .status ∈ l) : Frame l s t := by
  obtain ⟨f, rfl⟩ := h
  exact (setStatus s _).mono (by simpa using hl)

end Frame

/-- The frame of every instruction, put together from the frames of the operations it is made of. -/
theorem exec_frame {i : Instr} {s t : State} (h : exec i s = .next t) : Frame (writesOf i) s t := by
  cases i with
  | cls =>
    obtain rfl := Host.Outcome.next.inj h
    exact (Frame.setFb s _).trans (Frame.advance _)
  | jp | jpV0 =>
    obtain rfl := Host.Outcome.next.inj h
    exact Frame.setPc s _
  | seByte | sneByte | seReg | sneReg =>
    obtain rfl := Host.Outcome.next.inj h
    exact Frame.skipIf s _
  | ldByte | addByte | ldReg | ldVxDT =>
    obtain rfl := Host.Outcome.next.inj h
    exact (Frame.setV s _ _).trans (Frame.advance _)
  | orReg | andReg | xorReg =>
    obtain rfl := Host.Outcome.next.inj h
    exact (Frame.setLogic s _ _).trans (Frame.advance _)
  | addReg | subReg | shr | subnReg | shl =>
    obtain rfl := Host.Outcome.next.inj h
    exact (Frame.setResult s _ _ _).trans (Frame.advance _)
  | ldI | addI =>
    obtain rfl := Host.Outcome.next.inj h
    exact (Frame.setI s _).trans (Frame.advance _)
  | rnd =>
    obtain rfl := Host.Outcome.next.inj h
    exact ((Frame.nextDraw s).trans ((Frame.setV _ _ _).trans (Frame.advance _))).mono (by simp [writesOf])
  | ldVxK =>
    obtain rfl := Host.Outcome.next.inj h
    exact Frame.setStatus s _
  | ldDTVx =>
    obtain rfl := Host.Outcome.next.inj h
    exact (Frame.setDT s _).trans (Frame.advance _)
  | ldSTVx =>
    obtain rfl := Host.Outcome.next.inj h
    exact (Frame.setST s _).trans (Frame.advance _)
  | sys =>
    rcases execSys_cases h with hfault | rfl
    · exact .of_faultedFrom hfault (by simp [writesOf])
    · exact (Frame.advance s).mono (by simp [writesOf])
  | ret =>
    rcases execRet_cases h with hfault | ⟨l, w, -, rfl⟩
    · exact .of_faultedFrom hfault (by simp [writesOf])
    · exact ((Frame.setStack s l).trans (Frame.setPc _ w)).mono (by simp [writesOf])
  | call =>
    rcases execCall_cases h with hfault | ⟨-, rfl⟩
    · exact .of_faultedFrom hfault (by simp [writesOf])
    · exact ((Frame.setStack s _).trans (Frame.setPc _ _)).mono (by simp [writesOf])
  | drw =>
    rcases execDrw_cases h with hfault | ⟨-, rfl⟩ | ⟨-, p, -, rfl⟩
    · exact .of_faultedFrom hfault (by simp [writesOf])
    · exact ((Frame.setVF s 0).trans (Frame.advance _)).mono (by simp [writesOf])
    · exact ((Frame.drawSprite s _ _ p).trans (Frame.advance _)).mono (by simp [writesOf])
  | skp =>
    rcases execSkp_cases h with hfault | ⟨k, -, rfl⟩
    · exact .of_faultedFrom hfault (by simp [writesOf])
    · exact (Frame.skipIf s _).mono (by simp [writesOf])
  | sknp =>
    rcases execSknp_cases h with hfault | ⟨k, -, rfl⟩
    · exact .of_faultedFrom hfault (by simp [writesOf])
    · exact (Frame.skipIf s _).mono (by simp [writesOf])
  | ldF =>
    rcases execLdF_cases h with hfault | ⟨d, -, rfl⟩
    · exact .of_faultedFrom hfault (by simp [writesOf])
    · exact ((Frame.setI s _).trans (Frame.advance _)).mono (by simp [writesOf])
  | ldB =>
    rcases execLdB_cases h with hfault | ⟨-, rfl⟩
    · exact .of_faultedFrom hfault (by simp [writesOf])
    · exact ((Frame.putBytes s _ _).trans (Frame.advance _)).mono (by simp [writesOf])
  | storeRegs =>
    rcases execStoreRegs_cases h with hfault | ⟨-, rfl⟩
    · exact .of_faultedFrom hfault (by simp [writesOf])
    · exact ((Frame.putBytes s _ _).trans ((Frame.setI _ _).trans (Frame.advance _))).mono (by simp [writesOf])
  | loadRegs =>
    rcases execLoadRegs_cases h with hfault | rfl
    · exact .of_faultedFrom hfault (by simp [writesOf])
    · exact ((Frame.setRegs s _).trans ((Frame.setI _ _).trans (Frame.advance _))).mono (by simp [writesOf])

/-- Settles O17. -/
theorem instructionsWriteOnlyTheirParts : Obligations.InstructionsWriteOnlyTheirParts :=
  fun _ _ _ h => exec_frame h

/-! ## Which registers each operation changes -/

namespace RegsExcept

theorem setV (s : State) (x : RegIdx) (b : Byte) : RegsExcept [x] s (s.setV x b) :=
  fun _ hk => State.getV_setV_ne s b (by simpa using hk)

theorem setResult (s : State) (x : RegIdx) (r f : Byte) : RegsExcept [x, vf] s (s.setResult x r f) := by
  intro k hk
  obtain ⟨hx, hvf⟩ : k ≠ x ∧ k ≠ vf := by simpa using hk
  rw [State.getV_setResult, if_neg hvf, if_neg hx]

theorem setLogic (s : State) (x : RegIdx) (r : Byte) :
    RegsExcept (if s.cfg.logicVfReset then [x, vf] else [x]) s (s.setLogic x r) := by
  rw [State.setLogic_eq]
  split
  · exact setResult s x r 0
  · exact setV s x r

/-- V0..Vx are loaded; a register past the end of the list keeps its value. -/
theorem setRegs (s : State) (x : RegIdx) {bs : List Byte} (hl : bs.length = x.val + 1) :
    RegsExcept ((List.finRange 16).filter fun k => decide (k ≤ x)) s (s.setRegs bs) := by
  intro k hk
  have hkx : x.val < k.val := by simpa using hk
  rw [State.getV_setRegs, List.getD_eq_default]
  omega

theorem of_faultedFrom {s t : State} {l : List RegIdx} (h : FaultedFrom s t) : RegsExcept l s t := by
  obtain ⟨f, rfl⟩ := h
  exact fun _ _ => rfl

end RegsExcept

/-- Only the instructions that write registers need a look; of the others the frame says it. -/
theorem exec_regsExcept {i : Instr} {s t : State} (h : exec i s = .next t) :
    RegsExcept (destRegsOf s.cfg i) s t := by
  cases i with
  | ldByte | addByte | ldReg | rnd | ldVxDT =>
    obtain rfl := Host.Outcome.next.inj h
    exact RegsExcept.setV s _ _
  | orReg | andReg | xorReg =>
    obtain rfl := Host.Outcome.next.inj h
    exact RegsExcept.setLogic s _ _
  | addReg | subReg | shr | subnReg | shl =>
    obtain rfl := Host.Outcome.next.inj h
    exact RegsExcept.setResult s _ _ _
  | drw =>
    rcases execDrw_cases h with hfault | ⟨-, rfl⟩ | ⟨-, p, -, rfl⟩
    · exact .of_faultedFrom hfault
    · exact RegsExcept.setV s vf 0
    · exact RegsExcept.setV s vf _
  | loadRegs x =>
    rcases execLoadRegs_cases h with hfault | rfl
    · exact .of_faultedFrom hfault
    · intro k hk
      rw [State.getV_advance, State.getV_setI]
      exact RegsExcept.setRegs s x (State.length_bytesFrom s _ _) k hk
  | sys | cls | ret | jp | call | seByte | sneByte | seReg | sneReg | ldI | jpV0 | skp | sknp | ldVxK | ldDTVx | ldSTVx
  | addI | ldF | ldB | storeRegs =>
    exact fun k _ => exec_frame h .regs (by simp [writesOf]) k

/-- Settles O18. -/
theorem onlyDestinationRegistersChange : Obligations.OnlyDestinationRegistersChange :=
  fun _ _ _ h => exec_regsExcept h

/-! ## What no instruction reads: the sound timer, and but for SKP and SKNP the keys -/

/-- The state with another sound timer and another key snapshot, each where one is given. -/
def State.withInputs (b : Option Byte) (k : Option (Vector Bool 16)) (s : State) : State :=
  (s.setST (b.getD s.st)).setKeys (k.getD s.key)

/-- A result with its next state changed by `g`. -/
def mapNext (g : State → State) : Result → Result
  | .next t => .next (g t)
  | .fault f => .fault f
  | .refused r => .refused r

section

variable (s : State) (b : Option Byte) (k : Option (Vector Bool 16))

theorem State.withInputs_setST (c : Byte) : s.withInputs (some c) none = s.setST c := rfl

theorem State.withInputs_setKeys (keys : Vector Bool 16) : s.withInputs none (some keys) = s.setKeys keys := rfl

/-- The end of a step commutes with the change when the completion `g` does. -/
theorem commit_map_withInputs {α : Type} (r : Except Fault α) {g g' : α → State}
    (hg : ∀ a, g' a = (g a).withInputs b k) :
    (s.withInputs b k).commit (r.map g') = mapNext (State.withInputs b k) (s.commit (r.map g)) := by
  cases r with
  | error f => rfl
  | ok a => exact congrArg Host.Outcome.next (hg a)

/-- The same for a check that answers the changed value. -/
theorem commit_map_map_withInputs {α : Type} (r : Except Fault α) {u : α → α} {g g' : α → State}
    (hg : ∀ a, g' (u a) = (g a).withInputs b k) :
    (s.withInputs b k).commit ((r.map u).map g') = mapNext (State.withInputs b k) (s.commit (r.map g)) := by
  cases r with
  | error f => rfl
  | ok a => exact congrArg Host.Outcome.next (hg a)

theorem State.push_withInputs (w : Word) :
    (s.withInputs b k).push w = (s.push w).map (State.withInputs b k) := by
  by_cases h : s.stack.length < 16
  · rw [push_ok h, push_ok (s := s.withInputs b k) h]
    rfl
  · rw [push_error (not_lt.mp h), push_error (s := s.withInputs b k) (not_lt.mp h)]
    rfl

theorem State.pop_withInputs :
    (s.withInputs b k).pop = s.pop.map fun p => (p.1, p.2.withInputs b k) := by
  rcases List.eq_nil_or_concat' s.stack with h | ⟨l, w, h⟩
  · rw [pop_nil h, pop_nil (s := s.withInputs b k) h]
    rfl
  · rw [pop_concat h, pop_concat (s := s.withInputs b k) h]
    rfl

theorem State.writeSeq_withInputs (w : Word) (bs : List Byte) :
    (s.withInputs b k).writeSeq w bs = (s.writeSeq w bs).map (State.withInputs b k) := by
  unfold writeSeq
  split <;> rfl

theorem State.setLogic_withInputs (x : RegIdx) (r : Byte) :
    (s.withInputs b k).setLogic x r = (s.setLogic x r).withInputs b k := by
  have hc : (s.withInputs b k).cfg = s.cfg := rfl
  unfold setLogic
  rw [hc]
  split <;> rfl

theorem State.setRegs_withInputs (bs : List Byte) :
    (s.withInputs b k).setRegs bs = (s.setRegs bs).withInputs b k := by
  have hv : (s.withInputs b k).getV = s.getV := rfl
  unfold setRegs
  rw [hv]
  rfl

theorem execSys_withInputs (nnn : Addr12) :
    execSys nnn (s.withInputs b k) = mapNext (State.withInputs b k) (execSys nnn s) := by
  have hc : (s.withInputs b k).cfg = s.cfg := rfl
  unfold execSys
  rw [hc]
  split <;> rfl

theorem execDrw_withInputs (x y : RegIdx) (n : Fin 16) :
    execDrw x y n (s.withInputs b k) = mapNext (State.withInputs b k) (execDrw x y n s) := by
  have hc : (s.withInputs b k).cfg = s.cfg := rfl
  have hread : (s.withInputs b k).readSeq (s.withInputs b k).i n.val = s.readSeq s.i n.val := rfl
  unfold execDrw
  rw [hc, hread]
  split
  · split <;> rfl
  · split
    · rfl
    · exact commit_map_withInputs s b k _ fun _ => rfl

/-- An instruction that reads neither what is changed answers the same but for the change. -/
theorem exec_withInputs {i : Instr} (hb : b = none ∨ ∀ x, i ≠ .ldSTVx x)
    (hk : k = none ∨ ∀ x, i ≠ .skp x ∧ i ≠ .sknp x) :
    exec i (s.withInputs b k) = mapNext (State.withInputs b k) (exec i s) := by
  cases i with
  | cls | jp | seByte | sneByte | seReg | ldByte | addByte | ldReg | addReg | subReg | shr | subnReg | shl | sneReg
  | ldI | jpV0 | rnd | ldVxDT | ldVxK | ldDTVx | addI => rfl
  | orReg | andReg | xorReg =>
    exact congrArg (fun u => Host.Outcome.next u.advance) (State.setLogic_withInputs s b k _ _)
  | ldSTVx x =>
    obtain rfl := hb.resolve_right fun h => h x rfl
    rfl
  | sys nnn => exact execSys_withInputs s b k nnn
  | ret =>
    show (s.withInputs b k).commit ((s.withInputs b k).pop.map _) = _
    rw [State.pop_withInputs]
    exact commit_map_map_withInputs s b k _ fun _ => rfl
  | call =>
    show (s.withInputs b k).commit (((s.withInputs b k).push _).map _) = _
    rw [State.push_withInputs]
    exact commit_map_map_withInputs s b k _ fun _ => rfl
  | drw x y n => exact execDrw_withInputs s b k x y n
  | skp x =>
    obtain rfl := hk.resolve_right fun h => (h x).1 rfl
    exact commit_map_withInputs s b none _ fun _ => rfl
  | sknp x =>
    obtain rfl := hk.resolve_right fun h => (h x).2 rfl
    exact commit_map_withInputs s b none _ fun _ => rfl
  | ldF => exact commit_map_withInputs s b k _ fun _ => rfl
  | ldB =>
    show (s.withInputs b k).commit (((s.withInputs b k).writeSeq _ _).map _) = _
    rw [State.writeSeq_withInputs]
    exact commit_map_map_withInputs s b k _ fun _ => rfl
  | storeRegs =>
    show (s.withInputs b k).commit (((s.withInputs b k).writeSeq _ _).map _) = _
    rw [State.writeSeq_withInputs]
    exact commit_map_map_withInputs s b k _ fun _ => rfl
  | loadRegs x =>
    refine commit_map_withInputs s b k (s.readSeq s.i (x.val + 1)) fun bs => ?_
    rw [State.setRegs_withInputs]
    generalize s.setRegs bs = u
    rfl

end

/-- Settles O19: LD ST writes over the timer, and every other instruction leaves it as it is. -/
theorem noInstructionReadsTheSoundTimer : Obligations.NoInstructionReadsTheSoundTimer := by
  intro i s t c h
  by_cases hi : ∃ x, i = .ldSTVx x
  · obtain ⟨x, rfl⟩ := hi
    obtain rfl := Host.Outcome.next.inj h
    exact ⟨_, rfl, rfl, .inl ⟨⟨x, rfl⟩, rfl⟩⟩
  · have hb : ∀ x, i ≠ .ldSTVx x := not_exists.mp hi
    have hcomm := exec_withInputs s (some c) none (.inr hb) (.inl rfl)
    rw [h, State.withInputs_setST] at hcomm
    exact ⟨t.setST c, hcomm, rfl, .inr ⟨hb, rfl⟩⟩

/-- Settles O20. -/
theorem onlyKeySkipsReadTheKeys : Obligations.OnlyKeySkipsReadTheKeys := by
  intro i s t k hi h
  have hcomm := exec_withInputs s none (some k) (.inl rfl) (.inr hi)
  rw [h, State.withInputs_setKeys] at hcomm
  exact hcomm

/-! ## The stack -/

namespace State

/-- Values that fit are appended, the first lowest. -/
theorem pushMany_ok {ws : List Word} {s : State} (h : s.stack.length + ws.length ≤ 16) :
    pushMany ws s = .ok (s.setStack (s.stack ++ ws)) := by
  induction ws generalizing s with
  | nil =>
    rw [List.append_nil]
    rfl
  | cons w ws ih =>
    rw [List.length_cons] at h
    rw [pushMany, push_ok (by omega)]
    have htail := ih (s := s.setStack (s.stack ++ [w])) (by simp; omega)
    rw [setStack_stack, List.append_assoc] at htail
    exact htail

/-- Values that do not all fit overflow the stack. -/
theorem pushMany_error {ws : List Word} {s : State} (hs : s.stack.length ≤ 16)
    (h : 16 < s.stack.length + ws.length) : pushMany ws s = .error .stackOverflow := by
  induction ws generalizing s with
  | nil => exact absurd h (Nat.not_lt.mpr hs)
  | cons w ws ih =>
    rw [List.length_cons] at h
    rw [pushMany]
    by_cases hl : s.stack.length < 16
    · rw [push_ok hl]
      exact ih (by simp; omega) (by simp; omega)
    · rw [push_error (not_lt.mp hl)]

/-- The values on top of `l` come off in reverse order, and `l` is left. -/
theorem popMany_setStack (s : State) (l ws : List Word) :
    popMany ws.length (s.setStack (l ++ ws)) = .ok (ws.reverse, s.setStack l) := by
  induction ws using List.reverseRecOn with
  | nil =>
    rw [List.append_nil]
    rfl
  | append_singleton ws w ih =>
    have hpop : (s.setStack (l ++ (ws ++ [w]))).pop = .ok (w, s.setStack (l ++ ws)) :=
      pop_concat (by simp)
    rw [List.length_append, List.length_singleton, popMany, hpop]
    simp [ih]

end State

/-- Settles O57. -/
theorem stackIsLastInFirstOut : Obligations.StackIsLastInFirstOut := by
  intro ws s
  refine ⟨fun h => ⟨_, State.pushMany_ok h, ?_, State.popMany_setStack s s.stack ws⟩, State.pushMany_error⟩
  simp [State.stackLen]

/-- Settles O56. -/
theorem pushAndPopMoveTheTop : Obligations.PushAndPopMoveTheTop := by
  intro s w
  refine ⟨fun h => ⟨_, State.push_ok h w, rfl, Frame.setStack s _⟩, fun h => State.push_error h.ge w,
    fun l h => ⟨_, State.pop_concat h, rfl, Frame.setStack s l⟩, State.pop_nil⟩

/-! ## Stopped machines and the key snapshot -/

/-- Settles O6. -/
theorem stepOfAStoppedMachineChangesNothing : Obligations.StepOfAStoppedMachineChangesNothing := by
  rintro s (⟨x, hx⟩ | ⟨f, hf⟩)
  · exact step_waiting hx
  · exact step_faulted hf

/-- Settles O47. -/
theorem setKeysReplacesTheSnapshot : Obligations.SetKeysReplacesTheSnapshot :=
  fun s k => ⟨fun _ => rfl, Frame.setKeys s k⟩

end Sys2Proof.Machine

/-! # Memory: what a store leaves for a read and for a fetch (20_memory.md) -/

namespace Sys2Proof.Machine

namespace State

/-! ## Single bytes (20_memory.md R61, R62) -/

theorem read_ok {s : State} {a : Word} (h : a.toNat ≤ 4095) : s.read a = .ok (s.byteAt a.toNat) :=
  readAt_ok h

theorem read_error {s : State} {a : Word} (h : 4096 ≤ a.toNat) : s.read a = .error (.outOfBounds a) := by
  rw [read, readAt_error h, BitVec.ofNat_toNat, BitVec.setWidth_eq]

theorem write_ok {s : State} {a : Word} (h : a.toNat ≤ 4095) (b : Byte) :
    s.write a b = .ok (s.putBytes a.toNat [b]) :=
  if_neg (Nat.not_lt.mpr h)

theorem write_error {s : State} {a : Word} (h : 4096 ≤ a.toNat) (b : Byte) :
    s.write a b = .error (.outOfBounds a) :=
  if_pos h

/-- A byte stored in memory reads back. -/
theorem byteAt_putBytes_singleton {s : State} (hw : s.memWf = true) {a : Nat} (h : a ≤ 4095) (b : Byte) :
    (s.putBytes a [b]).byteAt a = b :=
  byteAt_putBytes_inside (k := 0) (bs := [b]) hw (Nat.succ_le_succ h) Nat.zero_lt_one

/-- The store of one byte changes no other. -/
theorem byteAt_putBytes_singleton_ne (s : State) {a k : Nat} (h : k ≠ a) (b : Byte) :
    (s.putBytes a [b]).byteAt k = s.byteAt k :=
  byteAt_putBytes_outside s (by simp; omega)

end State

/-- Settles O54. -/
theorem memoryRoundTrip : Obligations.MemoryRoundTrip := by
  intro s a b hw
  refine ⟨fun ha => ⟨s.putBytes a.toNat [b], State.write_ok ha b, ?_, ?_, ?_, Frame.putBytes s _ _⟩,
    fun ha => ⟨State.write_error ha b, State.read_error ha⟩⟩
  · rw [State.read_ok ha, State.byteAt_putBytes_singleton hw ha]
  · exact fun k hk => State.byteAt_putBytes_singleton_ne s hk b
  · exact State.memWf_putBytes hw (Nat.succ_le_succ ha)

/-! ## The two blocks an instruction stores (20_memory.md R65, R66) -/

/-- The k-th digit of a byte, the hundreds first, is that of 10^(2 - k). -/
theorem toNat_getElem_bcdDigits (v : Byte) {k : Nat} (hk : k < (bcdDigits v).length) :
    (bcdDigits v)[k].toNat = v.toNat / 10 ^ (2 - k) % 10 := by
  have hv := v.isLt
  match k, hk with
  | 0, _ | 1, _ | 2, _ =>
    simp [bcdDigits]
    omega

/-- LD B with its three bytes inside memory completes. -/
theorem execLdB_ok {x : RegIdx} {s : State} (h : s.i.toNat + 2 ≤ 4095) :
    execLdB x s = .next (s.putBytes s.i.toNat (bcdDigits (s.getV x))).advance := by
  rw [execLdB, State.writeBcd, State.writeSeq_ok (by rw [State.length_bcdDigits]; omega)]
  rfl

/-- LD [I] with its block inside memory completes. -/
theorem execStoreRegs_ok {x : RegIdx} {s : State} (h : s.i.toNat + x.val ≤ 4095) :
    execStoreRegs x s =
      .next ((s.putBytes s.i.toNat (s.regsUpTo x)).setI (s.indexAfterBlock x)).advance := by
  rw [execStoreRegs, State.writeSeq_ok (by rw [State.length_regsUpTo]; omega)]
  rfl

/-- After LD [I], Vx the bytes of V0..Vx are at I..I + x, and every other byte is as before. -/
theorem byteAt_after_storeRegs {x : RegIdx} {s t : State} (hw : s.memWf = true) (hx : s.i.toNat + x.val ≤ 4095)
    (h : exec (.storeRegs x) s = .next t) (a : Nat) :
    (∀ k : RegIdx, k ≤ x → a = s.i.toNat + k.val → t.byteAt a = s.getV k) ∧
      (a < s.i.toNat ∨ s.i.toNat + x.val < a → t.byteAt a = s.byteAt a) := by
  obtain rfl := Host.Outcome.next.inj ((execStoreRegs_ok hx).symm.trans h)
  have hlen := State.length_regsUpTo s x
  rw [State.byteAt_advance, State.byteAt_setI]
  constructor
  · rintro k hk rfl
    have hkl : k.val < (s.regsUpTo x).length := hlen ▸ Nat.lt_succ_of_le hk
    rw [State.byteAt_putBytes_inside hw (by omega) hkl, State.getElem_regsUpTo]
  · intro ha
    exact State.byteAt_putBytes_outside s (by omega)

/-- After LD B, Vx the three digits are at I, I + 1, I + 2, and every other byte is as before. -/
theorem byteAt_after_ldB {x : RegIdx} {s t : State} (hw : s.memWf = true) (hx : s.i.toNat + 2 ≤ 4095)
    (h : exec (.ldB x) s = .next t) (a : Nat) :
    (∀ k, k ≤ 2 → a = s.i.toNat + k → (t.byteAt a).toNat = (s.getV x).toNat / 10 ^ (2 - k) % 10) ∧
      (a < s.i.toNat ∨ s.i.toNat + 2 < a → t.byteAt a = s.byteAt a) := by
  obtain rfl := Host.Outcome.next.inj ((execLdB_ok hx).symm.trans h)
  have hlen := State.length_bcdDigits (s.getV x)
  rw [State.byteAt_advance]
  constructor
  · rintro k hk rfl
    have hkl : k < (bcdDigits (s.getV x)).length := by omega
    rw [State.byteAt_putBytes_inside hw (by omega) hkl, toNat_getElem_bcdDigits]
  · intro ha
    exact State.byteAt_putBytes_outside s (by omega)

/-! ## The fetch after a store (20_memory.md R69, R80) -/

/-- A fetch reads the two bytes at pc, so it sees what another state's memory holds there when the two read alike. -/
theorem State.fetchWord_of_byteAt_eq {t u : State} (hu : ∀ a, u.byteAt a = t.byteAt a)
    (hpc : u.pc.toNat + 1 ≤ 4095) :
    u.fetchWord = .ok (wordOfBytes (t.byteAt u.pc.toNat) (t.byteAt (u.pc.toNat + 1))) := by
  rw [State.fetchWord_ok hpc, hu, hu]

/-- Settles O55: what the store left at pc is the high byte, what it left at pc + 1 the low one. -/
theorem storesAreSeenByTheNextFetch : Obligations.StoresAreSeenByTheNextFetch := by
  intro s t u x hw hu hpc
  have hfetch := State.fetchWord_of_byteAt_eq hu hpc
  constructor
  · intro hx h
    obtain ⟨hiIn, hiOut⟩ := byteAt_after_storeRegs hw hx h u.pc.toNat
    obtain ⟨loIn, loOut⟩ := byteAt_after_storeRegs hw hx h (u.pc.toNat + 1)
    exact ⟨_, _, hfetch, hiIn, loIn, hiOut, loOut⟩
  · intro hx h
    obtain ⟨hiIn, hiOut⟩ := byteAt_after_ldB hw hx h u.pc.toNat
    obtain ⟨loIn, loOut⟩ := byteAt_after_ldB hw hx h (u.pc.toNat + 1)
    exact ⟨_, _, hfetch, hiIn, loIn, hiOut, loOut⟩

end Sys2Proof.Machine

/-! # Encoding: the decoder, the encoder, and the fetch that feeds the decoder (30_encoding.md) -/

namespace Sys2Proof

/-! ## A word from the fields of its layout (30_encoding.md R92)

The word is written as `encode` writes it, from an op and the fields that the decoder reads. -/

section
variable {w : Word} {o n : BitVec 4} {k : Byte}

theorem layout_nnn (hop : fieldOp w = o) : o ++ fieldNNN w = w :=
  hop ▸ word_eq_nnn w

theorem layout_xkk (hop : fieldOp w = o) (hk : fieldKK w = k) : o ++ nib (fieldX w) ++ k = w := by
  subst hop hk
  exact word_eq_xkk w

theorem layout_xyn (hop : fieldOp w = o) (hn : w.extractLsb' 0 4 = n) :
    o ++ nib (fieldX w) ++ nib (fieldY w) ++ n = w := by
  subst hop hn
  exact word_eq_xyn w

/-- A word keeps op, x and y under the mask that clears n. -/
theorem clear_n (o x y n : BitVec 4) : (o ++ x ++ y ++ n : Word) &&& 0xFFF0#16 = o ++ x ++ y ++ 0#4 := by
  show (o ++ x ++ y ++ n) &&& (BitVec.allOnes 4 ++ BitVec.allOnes 4 ++ BitVec.allOnes 4 ++ 0#4) = o ++ x ++ y ++ 0#4
  simp only [BitVec.and_append, BitVec.and_zero, BitVec.and_allOnes]

theorem layout_xy0 (hop : fieldOp w = o) : o ++ nib (fieldX w) ++ nib (fieldY w) ++ 0x0#4 = w &&& 0xFFF0 := by
  rw [← clear_n, layout_xyn hop rfl]
  rfl

end

/-- Op 15 is what the other fifteen leave. -/
theorem op_eq_fifteen : ∀ o : BitVec 4, o ∉ [0, 1, 2, 3, 4, 5, 6, 7, 8, 9, 10, 11, 12, 13, 14] → o = 15 := by
  decide

/-- The n that select nothing in family 8 (30_encoding.md R101). -/
theorem toFin_mem_unused_iff : ∀ n : BitVec 4,
    n.toFin ∈ ([8, 9, 10, 11, 12, 13, 15] : List (Fin 16)) ↔ n ∉ [0x0, 0x1, 0x2, 0x3, 0x4, 0x5, 0x6, 0x7, 0xE] := by
  decide

/-- SYS does not stand for the words of CLS and RET (30_encoding.md R99). -/
theorem wellFormed_sys {nnn : Addr12} : (Instr.sys nnn).wellFormed = true ↔ nnn ≠ 0x0E0#12 ∧ nnn ≠ 0x0EE#12 := by
  rw [Instr.wellFormed, Bool.and_eq_true, bne_iff_ne, bne_iff_ne]

/-! ## What each sub-decoder accepts and rejects (30_encoding.md R99 to R103) -/

/-- `i` is a well-formed instruction whose encoding is `w`. -/
def Spells (i : Instr) (w : Word) : Prop := i.wellFormed = true ∧ encode i = w

section
variable {w w' : Word} {i : Instr}

theorem decode0_spells (hop : fieldOp w = 0x0) : Spells (decode0 w) w := by
  have hw := layout_nnn hop
  unfold decode0
  split
  next h => exact ⟨rfl, h.symm⟩
  next hcls =>
    split
    next h => exact ⟨rfl, h.symm⟩
    next hret =>
      have hne : fieldNNN w ≠ 0x0E0#12 ∧ fieldNNN w ≠ 0x0EE#12 :=
        ⟨fun h => hcls (hw ▸ congrArg (0x0#4 ++ ·) h), fun h => hret (hw ▸ congrArg (0x0#4 ++ ·) h)⟩
      exact ⟨wellFormed_sys.mpr hne, hw⟩

theorem decode59_eq_instr {strict : Bool} {j : Instr} :
    decode59 strict w i = .instr j ↔ i = j ∧ (strict = true → fieldN w = 0) := by
  unfold decode59
  split <;> simp_all

theorem decode59_eq_illegal {strict : Bool} :
    decode59 strict w i = .illegal w' ↔ w' = w ∧ strict = true ∧ fieldN w ≠ 0 := by
  unfold decode59
  split <;> simp_all [eq_comm]

theorem decode8_spells (hop : fieldOp w = 0x8) (h : decode8 w = .instr i) : Spells i w := by
  unfold decode8 at h
  split at h <;> cases h
  all_goals exact ⟨rfl, layout_xyn hop ‹_›⟩

theorem decode8_eq_illegal :
    decode8 w = .illegal w' ↔ w' = w ∧ fieldN w ∈ [8, 9, 10, 11, 12, 13, 15] := by
  rw [fieldN, toFin_mem_unused_iff]
  unfold decode8
  split <;> simp_all [eq_comm]

theorem decodeE_spells (hop : fieldOp w = 0xE) (h : decodeE w = .instr i) : Spells i w := by
  unfold decodeE at h
  split at h <;> cases h
  all_goals exact ⟨rfl, layout_xkk hop ‹_›⟩

theorem decodeE_eq_illegal : decodeE w = .illegal w' ↔ w' = w ∧ fieldKK w ∉ [0x9E, 0xA1] := by
  unfold decodeE
  split <;> simp_all [eq_comm]

theorem decodeF_spells (hop : fieldOp w = 0xF) (h : decodeF w = .instr i) : Spells i w := by
  unfold decodeF at h
  split at h <;> cases h
  all_goals exact ⟨rfl, layout_xkk hop ‹_›⟩

theorem decodeF_eq_illegal :
    decodeF w = .illegal w' ↔
      w' = w ∧ fieldKK w ∉ [0x07, 0x0A, 0x15, 0x18, 0x1E, 0x29, 0x33, 0x55, 0x65] := by
  unfold decodeF
  split <;> simp_all [eq_comm]

end

/-! ## The decoder against the encoder -/

/-- Settles O8, layout by layout: the decoder reads back the fields the encoder laid out, and SYS alone needs its
well-formedness. -/
theorem decodeOfEncodeIsTheInstruction : Obligations.DecodeOfEncodeIsTheInstruction := by
  intro strict i hwf
  cases i with
  | cls | ret => rfl
  | sys nnn =>
    obtain ⟨hcls, hret⟩ := wellFormed_sys.mp hwf
    have hnnn := fieldNNN_nnn 0x0#4 nnn
    have hnotCls : (0x0#4 ++ nnn : Word) ≠ 0x00E0#16 := fun h => hcls (hnnn.symm.trans (congrArg fieldNNN h))
    have hnotRet : (0x0#4 ++ nnn : Word) ≠ 0x00EE#16 := fun h => hret (hnnn.symm.trans (congrArg fieldNNN h))
    simp [encode, decode, decode0, hnotCls, hnotRet]
  | jp nnn | call nnn | ldI nnn | jpV0 nnn => simp [encode, decode]
  | seByte x kk | sneByte x kk | ldByte x kk | addByte x kk | rnd x kk => simp [encode, decode]
  | seReg x y | sneReg x y => simp [encode, decode, decode59]
  | ldReg x y | orReg x y | andReg x y | xorReg x y | addReg x y | subReg x y | shr x y | subnReg x y | shl x y =>
    simp [encode, decode, decode8]
  | drw x y n => simp [encode, decode]
  | skp x | sknp x => simp [encode, decode, decodeE]
  | ldVxDT x | ldVxK x | ldDTVx x | ldSTVx x | addI x | ldF x | ldB x | storeRegs x | loadRegs x =>
    simp [encode, decode, decodeF]

/-- A word of family 5 or 9 that is accepted is its instruction's word, or that word with another n. -/
theorem xy0_or_lenient {strict : Bool} {w : Word} {o : BitVec 4} (hop : fieldOp w = o) (ho : o = 5 ∨ o = 9)
    (hn : strict = true → fieldN w = 0) :
    o ++ nib (fieldX w) ++ nib (fieldY w) ++ 0x0#4 = w ∨
      (strict = false ∧ (fieldOp w = 5 ∨ fieldOp w = 9) ∧ fieldN w ≠ 0 ∧
        o ++ nib (fieldX w) ++ nib (fieldY w) ++ 0x0#4 = w &&& 0xFFF0) := by
  by_cases h0 : fieldN w = 0
  · exact .inl (layout_xyn hop (congrArg nib h0))
  · exact .inr ⟨Bool.eq_false_of_not_eq_true (mt hn h0), hop ▸ ho, h0, layout_xy0 hop⟩

/-- Settles O9, op by op: in the families 5 and 9 the n may differ, every other field is in the instruction. -/
theorem encodeOfDecodeIsTheWord : Obligations.EncodeOfDecodeIsTheWord := by
  intro strict w i h
  unfold decode at h
  split at h
  case h_1 hop =>
    cases h
    exact And.imp_right .inl (decode0_spells hop)
  -- 1, 2, A, B: all but the op is nnn
  case h_2 hop | h_3 hop | h_11 hop | h_12 hop =>
    cases h
    exact ⟨rfl, .inl (layout_nnn hop)⟩
  -- 3, 4, 6, 7, C: all but the op is x and kk
  case h_4 hop | h_5 hop | h_7 hop | h_8 hop | h_13 hop =>
    cases h
    exact ⟨rfl, .inl (layout_xkk hop rfl)⟩
  case h_6 hop | h_10 hop =>
    -- 5, 9: n is no part of the instruction
    obtain ⟨rfl, hn⟩ := decode59_eq_instr.mp h
    exact ⟨rfl, xy0_or_lenient hop (by decide) hn⟩
  case h_9 hop => exact And.imp_right .inl (decode8_spells hop h)
  case h_14 hop =>
    cases h
    exact ⟨rfl, .inl (layout_xyn hop rfl)⟩
  case h_15 hop => exact And.imp_right .inl (decodeE_spells hop h)
  case h_16 =>
    have hop : fieldOp w = 0xF := op_eq_fifteen _ (by simp_all)
    exact And.imp_right .inl (decodeF_spells hop h)

/-- Settles O10, op by op: only the families 5, 8, 9, E and F reject a word. -/
theorem illegalWordsAreExactlyThese : Obligations.IllegalWordsAreExactlyThese := by
  intro strict w w'
  unfold decode
  split
  case h_6 hop | h_10 hop => simp [hop, decode59_eq_illegal]
  case h_9 hop => simp [hop, decode8_eq_illegal]
  case h_15 hop => simp [hop, decodeE_eq_illegal]
  case h_16 =>
    have hop : fieldOp w = 0xF := op_eq_fifteen _ (by simp_all)
    simp [hop, decodeF_eq_illegal]
  -- every other op accepts all of its words
  all_goals
    next hop => simp [hop]

/-- The decoder rejects a word under its own name (30_encoding.md R104). -/
theorem eq_of_decode_eq_illegal {strict : Bool} {w w' : Word} (h : decode strict w = .illegal w') : w' = w :=
  ((illegalWordsAreExactlyThese strict w w').mp h).1

/-- Settles O11: closed words, so the decoder is run on each. -/
theorem sampleWordsDecodeAsWrittenOut : Obligations.SampleWordsDecodeAsWrittenOut := by
  unfold Obligations.SampleWordsDecodeAsWrittenOut
  decide

end Sys2Proof

namespace Sys2Proof.Machine

/-! ## The fetch that feeds the decoder (30_encoding.md R95) -/

/-- Settles O4: with both bytes in memory the fetch finds the word. -/
theorem stepRunsTheDecodedInstruction : Obligations.StepRunsTheDecodedInstruction := by
  intro s i hrun hpc hdec
  exact step_running_ok hrun (State.fetchInstr_ok (State.fetchWord_ok hpc) hdec)

/-- A running machine whose fetch fails takes the fault, and nothing but the status changes (60_exceptions.md R272). -/
theorem step_fetch_fault {s : State} {f : Fault} (hrun : s.status = .running) (hf : s.fetchInstr = .error f) :
    ∃ t, step s = .next t ∧ t.status = .faulted f ∧ Frame [.status] s t :=
  ⟨_, step_running_error hrun hf, rfl, Frame.setStatus s _⟩

/-- Settles O5: the three ways a fetch fails, each the same fault entry. -/
theorem fetchAndDecodeFaults : Obligations.FetchAndDecodeFaults := by
  intro s hrun
  refine ⟨fun hpc => ?_, fun hpc => ?_, fun hpc w hdec => ⟨eq_of_decode_eq_illegal hdec, ?_⟩⟩
  · exact step_fetch_fault hrun (State.fetchInstr_fault (State.fetchWord_first hpc))
  · exact step_fetch_fault hrun (State.fetchInstr_fault (State.fetchWord_second hpc))
  · exact step_fetch_fault hrun (State.fetchInstr_illegal (State.fetchWord_ok hpc) hdec)

/-! ## A word placed at pc (20_memory.md R69, R80) -/

namespace State

/-- With room for both bytes, placing a word is a store at pc. -/
theorem placeWord_eq {s : State} (hpc : s.pc.toNat + 1 ≤ 4095) (w : Word) :
    s.placeWord w = s.putBytes s.pc.toNat [(bytesOfWord w).1, (bytesOfWord w).2] :=
  if_pos hpc

theorem withFetchWord_eq (s : State) {w : Nat} (hw : w < 65536) :
    s.withFetchWord 16 w = (s.setStatus .running).placeWord (BitVec.ofNat 16 w) := by
  have hmod : w % 2 ^ 16 = w := Nat.mod_eq_of_lt hw
  rw [withFetchWord, hmod]

/-- The fetch reads a placed word back: its first byte in memory is the high one. -/
theorem fetchWord_placeWord {s : State} (hm : s.memWf = true) (hpc : s.pc.toNat + 1 ≤ 4095) (w : Word) :
    (s.placeWord w).fetchWord = .ok w := by
  rw [placeWord_eq hpc, fetchWord_ok (s := s.putBytes _ _) hpc, putBytes_pc]
  have hhi := byteAt_putBytes_inside (k := 0) (bs := [(bytesOfWord w).1, (bytesOfWord w).2]) hm
    (Nat.succ_le_succ hpc) Nat.two_pos
  have hlo := byteAt_putBytes_inside (k := 1) (bs := [(bytesOfWord w).1, (bytesOfWord w).2]) hm
    (Nat.succ_le_succ hpc) Nat.one_lt_two
  exact congrArg Except.ok ((congrArg₂ wordOfBytes hhi hlo).trans (wordOfBytes_bytesOfWord w))

theorem byteAt_placeWord_ne {s : State} (hpc : s.pc.toNat + 1 ≤ 4095) (w : Word) {a : Nat} (hhi : a ≠ s.pc.toNat)
    (hlo : a ≠ s.pc.toNat + 1) : (s.placeWord w).byteAt a = s.byteAt a := by
  rw [placeWord_eq hpc, byteAt_putBytes_outside]
  simp only [List.length_cons, List.length_nil]
  omega

theorem frame_placeWord {s : State} (hpc : s.pc.toNat + 1 ≤ 4095) (w : Word) :
    Frame [.memory] s (s.placeWord w) :=
  placeWord_eq hpc w ▸ Frame.putBytes s _ _

theorem cfg_placeWord {s : State} (hpc : s.pc.toNat + 1 ≤ 4095) (w : Word) : (s.placeWord w).cfg = s.cfg :=
  frame_placeWord hpc w .config (by decide)

theorem status_placeWord {s : State} (hpc : s.pc.toNat + 1 ≤ 4095) (w : Word) :
    (s.placeWord w).status = s.status :=
  frame_placeWord hpc w .status (by decide)

end State

/-- Settles O7: the placed state is running, and its fetch finds the word. -/
theorem placedWordIsWhatRuns : Obligations.PlacedWordIsWhatRuns := by
  intro s w i hm hpc hw hdec
  rw [State.withFetchWord_eq s hw]
  have hpc' : (s.setStatus .running).pc.toNat + 1 ≤ 4095 := hpc
  have hm' : (s.setStatus .running).memWf = true := hm
  refine ⟨?_, ?_, fun a hhi hlo => State.byteAt_placeWord_ne hpc' _ hhi hlo⟩
  · refine step_running_ok (State.status_placeWord hpc' _)
      (State.fetchInstr_ok (State.fetchWord_placeWord hm' hpc' _) ?_)
    rw [State.cfg_placeWord hpc']
    exact hdec
  · exact ((Frame.setStatus s .running).trans (State.frame_placeWord hpc' _)).mono (by simp)

end Sys2Proof.Machine

/-! # Control flow: SYS, CLS, RET, JP, CALL, the skips and JP V0 (40_flow.md) -/

namespace Sys2Proof.Machine

/-! ## What a fault writes (40_flow.md R121, 60_exceptions.md R272) -/

/-- A raised fault is entered in the status, and nothing else is written. -/
theorem raise_answers (f : Fault) (s : State) :
    ∃ t, raise f s = .next t ∧ t.status = .faulted f ∧ Frame [.status] s t :=
  ⟨_, raise_eq f s, rfl, Frame.setStatus s _⟩

/-- An instruction faults with nothing else written, or keeps the status, or is LD Vx, K and starts its wait. -/
theorem exec_status_cases {i : Instr} {s t : State} (h : exec i s = .next t) :
    FaultedFrom s t ∨ t.status = s.status ∨ ∃ x, i = .ldVxK x ∧ t.status = .waiting x := by
  cases i with
  | ldVxK x =>
    obtain rfl := Host.Outcome.next.inj h
    exact .inr (.inr ⟨x, rfl, rfl⟩)
  | sys => exact (execSys_cases h).imp_right fun ht => .inl (by simp [ht])
  | ret => exact (execRet_cases h).imp_right fun ⟨_, _, _, ht⟩ => .inl (by simp [ht])
  | call => exact (execCall_cases h).imp_right fun ⟨_, ht⟩ => .inl (by simp [ht])
  | drw =>
    rcases execDrw_cases h with hfault | ⟨-, ht⟩ | ⟨-, p, -, ht⟩
    · exact .inl hfault
    · exact .inr (.inl (by simp [ht]))
    · exact .inr (.inl (by simp [ht, State.drawSprite_eq]))
  | skp => exact (execSkp_cases h).imp_right fun ⟨_, _, ht⟩ => .inl (by simp [ht])
  | sknp => exact (execSknp_cases h).imp_right fun ⟨_, _, ht⟩ => .inl (by simp [ht])
  | ldF => exact (execLdF_cases h).imp_right fun ⟨_, _, ht⟩ => .inl (by simp [ht])
  | ldB => exact (execLdB_cases h).imp_right fun ⟨_, ht⟩ => .inl (by simp [ht])
  | storeRegs => exact (execStoreRegs_cases h).imp_right fun ⟨_, ht⟩ => .inl (by simp [ht])
  | loadRegs => exact (execLoadRegs_cases h).imp_right fun ht => .inl (by simp [ht])
  -- no other instruction has the status among its parts
  | cls | jp | seByte | sneByte | seReg | ldByte | addByte | ldReg | orReg | andReg | xorReg | addReg | subReg | shr
  | subnReg | shl | sneReg | ldI | jpV0 | rnd | ldVxDT | ldDTVx | ldSTVx | addI =>
    exact .inr (.inl (exec_frame h .status (by simp [writesOf])))

/-- A step of a running machine that ends faulted has raised a fault, in the fetch, in decode or in the instruction. -/
theorem faultedFrom_of_step {s t : State} {f : Fault} (hrun : s.status = .running) (h : step s = .next t)
    (hf : t.status = .faulted f) : FaultedFrom s t := by
  rcases step_cases s with ⟨hstop, -⟩ | ⟨-, g, -, hs⟩ | ⟨-, i, -, hs⟩
  · exact absurd hrun hstop
  · exact ⟨g, Host.Outcome.next.inj (h.symm.trans hs)⟩
  · rcases exec_status_cases (hs.symm.trans h) with hfault | hkeep | ⟨x, -, hwait⟩
    · exact hfault
    · exact nomatch (hf.symm.trans (hkeep.trans hrun) : Status.faulted f = .running)
    · exact nomatch (hf.symm.trans hwait : Status.faulted f = .waiting x)

/-- Settles O12: the fault raised is the one the status reports. -/
theorem faultsArePrecise : Obligations.FaultsArePrecise := by
  intro s t f hrun h hf
  obtain ⟨g, rfl⟩ := faultedFrom_of_step hrun h hf
  exact congrArg s.setStatus hf

/-! ## SYS and CLS (R125, R126) -/

theorem exec_sys_nop {s : State} (hp : s.cfg.sysPolicy = .nop) (nnn : Addr12) :
    exec (.sys nnn) s = .next s.advance := by
  simp [exec, execSys, hp]

theorem exec_sys_fault {s : State} (hp : s.cfg.sysPolicy = .fault) (nnn : Addr12) :
    exec (.sys nnn) s = raise (.undefined (encode (.sys nnn))) s := by
  simp [exec, execSys, hp]

/-- Settles O21. -/
theorem sysGoesOnOrFaultsByPolicy : Obligations.SysGoesOnOrFaultsByPolicy := by
  intro nnn s
  constructor
  · intro hp
    exact ⟨_, exec_sys_nop hp nnn, rfl, Frame.advance s⟩
  · intro hp
    rw [exec_sys_fault hp]
    exact raise_answers _ s

/-- Settles O22. -/
theorem clsClearsTheDisplay : Obligations.ClsClearsTheDisplay := fun s =>
  ⟨_, rfl, FrameBuf.pixel_blank, rfl, (Frame.setFb s _).trans (Frame.advance _),
    fun strict => decodeOfEncodeIsTheInstruction strict .cls rfl⟩

/-! ## The jumps (R128, R134) -/

theorem toNat_addrOf (nnn : Addr12) : (addrOf nnn).toNat = nnn.toNat :=
  BitVec.toNat_setWidth_of_le (by decide)

theorem toNat_wordOf (b : Byte) : (wordOf b).toNat = b.toNat :=
  BitVec.toNat_setWidth_of_le (by decide)

/-- The target of JP V0 is an exact sum: 0xFFF + 0xFF does not wrap (10_state.md R27). -/
theorem toNat_addrOf_add_wordOf (nnn : Addr12) (b : Byte) :
    (addrOf nnn + wordOf b).toNat = nnn.toNat + b.toNat := by
  have hn := nnn.isLt
  have hb := b.isLt
  rw [BitVec.toNat_add_of_lt (by rw [toNat_addrOf, toNat_wordOf]; omega), toNat_addrOf, toNat_wordOf]

theorem jumpReg_v0 {s : State} (hc : s.cfg.jumpOffsetReg = .v0) (nnn : Addr12) : s.jumpReg nnn = 0 := by
  simp [State.jumpReg, hc]

/-- The field nnn[11:8] is nnn divided by 256. -/
theorem jumpReg_vx {s : State} (hc : s.cfg.jumpOffsetReg = .vx) (nnn : Addr12) :
    s.jumpReg nnn = Fin.ofNat 16 (nnn.toNat / 256) := by
  apply Fin.ext
  simp [State.jumpReg, hc, Nat.shiftRight_eq_div_pow]

/-- Settles O24. -/
theorem jpSetsThePc : Obligations.JpSetsThePc := fun nnn s =>
  ⟨_, rfl, toNat_addrOf nnn, Frame.setPc s _, fun strict => decodeOfEncodeIsTheInstruction strict (.jp nnn) rfl⟩

/-- Settles O29: the sum is exact, and the parameter selects its register. -/
theorem jpV0AddsTheOffset : Obligations.JpV0AddsTheOffset := by
  intro nnn s
  have hsum := toNat_addrOf_add_wordOf nnn (s.getV (s.jumpReg nnn))
  refine ⟨_, rfl, fun hc => hsum.trans ?_, fun hc => hsum.trans ?_, Frame.setPc s _⟩
  · rw [jumpReg_v0 hc]
  · rw [jumpReg_vx hc]

/-! ## Subroutines (R127, R129, R135) -/

theorem exec_ret_concat {s : State} {l : List Word} {w : Word} (hs : s.stack = l ++ [w]) :
    exec .ret s = .next ((s.setStack l).setPc w) := by
  simp [exec, execRet, State.pop_concat hs]

theorem exec_ret_nil {s : State} (hs : s.stack = []) : exec .ret s = raise .stackUnderflow s := by
  simp [exec, execRet, State.pop_nil hs]

theorem exec_call_ok {s : State} (hl : s.stack.length < 16) (nnn : Addr12) :
    exec (.call nnn) s = .next ((s.setStack (s.stack ++ [s.pc + 2])).setPc (addrOf nnn)) := by
  simp [exec, execCall, State.push_ok hl]

theorem exec_call_full {s : State} (hl : 16 ≤ s.stack.length) (nnn : Addr12) :
    exec (.call nnn) s = raise .stackOverflow s := by
  simp [exec, execCall, State.push_error hl]

/-- Settles O23. -/
theorem retPopsThePc : Obligations.RetPopsThePc := by
  intro s
  constructor
  · intro l w hs
    exact ⟨_, exec_ret_concat hs, rfl, rfl, (Frame.setStack s l).trans (Frame.setPc _ w)⟩
  · intro hs
    rw [exec_ret_nil hs]
    exact raise_answers _ s

/-- Settles O25. -/
theorem callPushesTheNextPcAndJumps : Obligations.CallPushesTheNextPcAndJumps := by
  intro nnn s
  refine ⟨fun hl => ?_, fun hl => ?_, fun strict => decodeOfEncodeIsTheInstruction strict (.call nnn) rfl⟩
  · exact ⟨_, exec_call_ok hl nnn, rfl, toNat_addrOf nnn, (Frame.setStack s _).trans (Frame.setPc _ _)⟩
  · rw [exec_call_full hl.ge]
    exact raise_answers _ s

/-- Settles O26: the top entry that RET pops is the one the CALL pushed. -/
theorem retAfterCallComesBack : Obligations.RetAfterCallComesBack := by
  intro nnn s t u hl h hu
  obtain rfl := Host.Outcome.next.inj ((exec_call_ok hl nnn).symm.trans h)
  exact (retPopsThePc u).1 s.stack (s.pc + 2) hu

/-! ## The skips (R123, R130 to R133) -/

/-- A skip moves pc by 4 where its condition holds and by 2 where it does not, and changes nothing else. -/
theorem skipIf_answers (s : State) {c : Bool} {P Q : Prop} (hP : P → c = true) (hQ : Q → c = false) :
    ∃ t, (Host.Outcome.next (s.skipIf c) : Result) = .next t ∧ (P → t.pc = s.pc + 4) ∧ (Q → t.pc = s.pc + 2) ∧
      Frame [.pc] s t :=
  ⟨_, rfl, fun p => by simp [hP p], fun q => by simp [hQ q], Frame.skipIf s c⟩

/-- Settles O27. -/
theorem immediateSkipsCompare : Obligations.ImmediateSkipsCompare := fun x kk s =>
  ⟨skipIf_answers s beq_iff_eq.mpr beq_eq_false_iff_ne.mpr, skipIf_answers s bne_iff_ne.mpr bne_eq_false_iff_eq.mpr,
    fun strict => decodeOfEncodeIsTheInstruction strict (.seByte x kk) rfl,
    fun strict => decodeOfEncodeIsTheInstruction strict (.sneByte x kk) rfl⟩

/-- Settles O28. -/
theorem registerSkipsCompare : Obligations.RegisterSkipsCompare := fun _ _ s =>
  ⟨skipIf_answers s beq_iff_eq.mpr beq_eq_false_iff_ne.mpr, skipIf_answers s bne_iff_ne.mpr bne_eq_false_iff_eq.mpr⟩

end Sys2Proof.Machine

/-! # Loads and arithmetic: what the instructions of 41_alu.md leave in Vx and VF -/

namespace Sys2Proof.Machine

/-! ## Loads and the addition of an immediate (R150 to R152) -/

/-- Settles O30. -/
theorem ldByteLoadsTheImmediate : Obligations.LdByteLoadsTheImmediate := fun x kk s =>
  ⟨_, rfl, State.getV_setV_same s x kk, rfl, RegsExcept.setV s x kk, (Frame.setV s x kk).trans (Frame.advance _),
    fun strict => decodeOfEncodeIsTheInstruction strict (.ldByte x kk) rfl⟩

/-- Settles O31: the sum is one of bytes, so it wraps. -/
theorem addByteAddsWithoutFlag : Obligations.AddByteAddsWithoutFlag := by
  intro x kk s
  refine ⟨_, rfl, ?_, rfl, RegsExcept.setV s x _, (Frame.setV s x _).trans (Frame.advance _)⟩
  rw [State.getV_advance, State.getV_setV_same, BitVec.toNat_add]

/-- Settles O32. -/
theorem ldRegCopiesTheRegister : Obligations.LdRegCopiesTheRegister := fun x y s =>
  ⟨_, rfl, State.getV_setV_same s x _, rfl, RegsExcept.setV s x _, (Frame.setV s x _).trans (Frame.advance _),
    fun strict => decodeOfEncodeIsTheInstruction strict (.ldReg x y) rfl⟩

/-! ## The bitwise operations (R153 to R155) -/

/-- Vx holds the result of a bitwise operation, but for VF under LOGIC_VF_RESET, whose reset comes last (R122). -/
theorem State.getV_setLogic_same {s : State} {x : RegIdx} (h : s.cfg.logicVfReset = false ∨ x ≠ vf) (r : Byte) :
    (s.setLogic x r).getV x = r := by
  rw [getV_setLogic, if_neg, if_pos rfl]
  rintro ⟨hreset, hx⟩
  exact h.elim (fun hkeep => Bool.false_ne_true (hkeep.symm.trans hreset)) (· hx)

theorem State.getV_setLogic_vf {s : State} (h : s.cfg.logicVfReset = true) (x : RegIdx) (r : Byte) :
    (s.setLogic x r).getV vf = 0 := by
  rw [getV_setLogic, if_pos ⟨h, rfl⟩]

/-- Each of the three instructions stores a byte whose bits are `f` of the operands' bits. -/
theorem exec_logic_eq {x y : RegIdx} {s : State} {i : Instr} {f : Bool → Bool → Bool}
    (h : (i = .orReg x y ∧ f = or) ∨ (i = .andReg x y ∧ f = and) ∨ (i = .xorReg x y ∧ f = xor)) :
    ∃ r : Byte, exec i s = .next (s.setLogic x r).advance ∧
      ∀ j, r.getLsbD j = f ((s.getV x).getLsbD j) ((s.getV y).getLsbD j) := by
  rcases h with ⟨rfl, rfl⟩ | ⟨rfl, rfl⟩ | ⟨rfl, rfl⟩
  · exact ⟨_, rfl, fun _ => BitVec.getLsbD_or⟩
  · exact ⟨_, rfl, fun _ => BitVec.getLsbD_and⟩
  · exact ⟨_, rfl, fun _ => BitVec.getLsbD_xor⟩

/-- Settles O33: the three differ in the byte stored only, and LOGIC_VF_RESET decides which registers are written. -/
theorem logicWorksBitByBit : Obligations.LogicWorksBitByBit := by
  intro x y s i f h
  obtain ⟨r, hexec, hbits⟩ := exec_logic_eq (s := s) h
  have hregs := RegsExcept.setLogic s x r
  refine ⟨_, hexec, ?_, (Frame.setLogic s x r).trans (Frame.advance _), ?_, ?_, ?_⟩
  · rw [State.advance_pc, (Frame.setLogic s x r) .pc (by simp)]
  · intro hx j _
    rw [State.getV_advance, State.getV_setLogic_same hx, hbits]
  · intro hkeep
    rwa [hkeep] at hregs
  · intro hreset
    rw [hreset] at hregs
    exact ⟨State.getV_setLogic_vf hreset x r, hregs⟩

/-! ## A result and its flag (R122, R156 to R160) -/

theorem State.getV_setResult_same (s : State) {x : RegIdx} (h : x ≠ vf) (r f : Byte) :
    (s.setResult x r f).getV x = r := by
  rw [getV_setResult, if_neg h, if_pos rfl]

theorem State.getV_setResult_vf (s : State) (x : RegIdx) (r f : Byte) : (s.setResult x r f).getV vf = f := by
  rw [getV_setResult, if_pos rfl]

/-- The instructions with a flag differ in the two numbers they compute: Vx is the result (the flag if x = 15), VF is
the flag, and only these two registers and pc change. -/
theorem setResult_answers (s : State) (x : RegIdx) {r f : Byte} {m n : Nat} (hr : r.toNat = m) (hf : f.toNat = n) :
    ∃ t, (Host.Outcome.next (s.setResult x r f).advance : Result) = .next t ∧ (x ≠ 15 → (t.getV x).toNat = m) ∧
      (t.getV 15).toNat = n ∧ t.pc = s.pc + 2 ∧ RegsExcept [x, 15] s t ∧ Frame [.regs, .pc] s t := by
  refine ⟨_, rfl, fun hx => ?_, ?_, rfl, RegsExcept.setResult s x r f,
    (Frame.setResult s x r f).trans (Frame.advance _)⟩
  · rw [State.getV_advance, State.getV_setResult_same s hx, hr]
  · exact (congrArg BitVec.toNat (State.getV_setResult_vf s x r f)).trans hf

/-! ## The numbers: sums, differences and shifts of bytes, and their flags (R11, R156 to R161) -/

theorem toNat_b2u_decide (p : Prop) [Decidable p] : (b2u (decide p)).toNat = if p then 1 else 0 := by
  by_cases hp : p <;> simp [b2u, hp]

theorem toNat_byte_sub (a b : Byte) : (a - b).toNat = (a.toNat + 256 - b.toNat) % 256 := by
  have hb := b.isLt
  rw [BitVec.toNat_sub]
  congr 1
  omega

theorem toNat_byte_shiftRight_one (b : Byte) : (b >>> 1).toNat = b.toNat / 2 := by
  rw [BitVec.toNat_ushiftRight, Nat.shiftRight_eq_div_pow, pow_one]

theorem toNat_byte_shiftLeft_one (b : Byte) : (b <<< 1).toNat = b.toNat * 2 % 256 := by
  rw [BitVec.toNat_shiftLeft, Nat.shiftLeft_eq, pow_one]

theorem toNat_shrOut (b : Byte) : (shrOut b).toNat = b.toNat % 2 := by
  rw [shrOut, BitVec.toNat_and]
  exact Nat.and_one_is_mod _

theorem toNat_shlOut (b : Byte) : (shlOut b).toNat = b.toNat / 128 := by
  rw [shlOut, BitVec.toNat_ushiftRight, Nat.shiftRight_eq_div_pow]

/-- The byte that SHIFT_SOURCE selects is the one the shift reads (R158, R160). -/
theorem State.shiftSrc_eq {s : State} {x y : RegIdx} {b : Byte}
    (h : (s.cfg.shiftSource = .vx ∧ b = s.getV x) ∨ (s.cfg.shiftSource = .vy ∧ b = s.getV y)) :
    s.shiftSrc x y = b := by
  rcases h with ⟨hc, rfl⟩ | ⟨hc, rfl⟩
  · simp [shiftSrc, hc]
  · simp [shiftSrc, hc]

/-! ## The instructions with a flag -/

/-- Settles O34. -/
theorem addRegAddsWithCarry : Obligations.AddRegAddsWithCarry := fun x _ s =>
  setResult_answers s x (BitVec.toNat_add _ _) (toNat_b2u_decide _)

/-- Settles O35. -/
theorem subtractionsSetNotBorrow : Obligations.SubtractionsSetNotBorrow := fun x y s =>
  ⟨setResult_answers s x (toNat_byte_sub _ _) (toNat_b2u_decide _),
    setResult_answers s x (toNat_byte_sub _ _) (toNat_b2u_decide _),
    fun strict => decodeOfEncodeIsTheInstruction strict (.subReg x y) rfl,
    fun strict => decodeOfEncodeIsTheInstruction strict (.subnReg x y) rfl⟩

/-- Settles O36. -/
theorem shiftsMoveByOneBit : Obligations.ShiftsMoveByOneBit := by
  intro x y s b h
  obtain rfl := State.shiftSrc_eq h
  exact ⟨setResult_answers s x (toNat_byte_shiftRight_one _) (toNat_shrOut _),
    setResult_answers s x (toNat_byte_shiftLeft_one _) (toNat_shlOut _)⟩

end Sys2Proof.Machine

/-! # RND, the drawing of a sprite, the key skips and the wait for a key (42_rand_draw_keys.md) -/

namespace Sys2Proof.Machine

/-! ## The picture that drawing leaves (R192, D30)

A drawing step is described by the pixels it flips. Two steps that flip different pixels make one step that flips
both sets, so the picture of a sprite is put together from its rows, and a row from its bits. -/

namespace FrameBuf

/-- The column of a sprite drawn at `cx` that covers the display's column `c`; a sprite has it if it is below 8. -/
def spriteCol (cx : Byte) (c : Fin 64) : Nat := (c.val + 256 - cx.toNat) % 64

/-- The row of a sprite drawn at `cy` that covers the display's row `r`. -/
def spriteRow (cy : Byte) (r : Fin 32) : Nat := (r.val + 256 - cy.toNat) % 32

theorem spriteAt_eq (rows : List Byte) (cx cy : Byte) (c : Fin 64) (r : Fin 32) :
    spriteAt rows cx cy c r =
      (decide (spriteCol cx c < 8) && decide (spriteRow cy r < rows.length) &&
        (rows.getD (spriteRow cy r) 0).getLsbD (7 - spriteCol cx c)) := rfl

theorem eq_wrapCol_iff (cx : Byte) {col : Nat} (hcol : col < 64) (c : Fin 64) :
    c = wrapCol cx col ↔ spriteCol cx c = col := by
  have hx := cx.isLt
  have hc := c.isLt
  simp only [Fin.ext_iff, wrapCol, Fin.val_ofNat, spriteCol]
  omega

theorem eq_wrapRow_iff (cy : Byte) {k : Nat} (hk : k < 32) (r : Fin 32) :
    r = wrapRow cy k ↔ spriteRow cy r = k := by
  have hy := cy.isLt
  have hr := r.isLt
  simp only [Fin.ext_iff, wrapRow, Fin.val_ofNat, spriteRow]
  omega

/-- From `a` to `b` the pixels of the set `P` were flipped, each of them once: `b` collided if `a` did, or if one of
these pixels was 1. -/
structure Flips (P : Fin 64 → Fin 32 → Bool) (a b : FrameBuf × Bool) : Prop where
  pixel_eq : ∀ c r, pixel b.1 c r = (pixel a.1 c r ^^ P c r)
  collided_iff : b.2 = true ↔ a.2 = true ∨ ∃ c r, P c r = true ∧ pixel a.1 c r = true

namespace Flips

variable {P Q : Fin 64 → Fin 32 → Bool} {a b d : FrameBuf × Bool}

theorem congr (h : Flips P a b) (hPQ : ∀ c r, P c r = Q c r) : Flips Q a b := by
  obtain rfl : P = Q := funext₂ hPQ
  exact h

theorem none (h : ∀ c r, P c r = false) : Flips P a a where
  pixel_eq := by simp [h]
  collided_iff := by simp [h]

theorem trans (h : Flips P a b) (h' : Flips Q b d) (hdisj : ∀ c r, Q c r = true → P c r = false) :
    Flips (fun c r => P c r || Q c r) a d where
  pixel_eq c r := by
    rw [h'.pixel_eq, h.pixel_eq]
    cases hq : Q c r with
    | false => simp
    | true => simp [hdisj c r hq]
  collided_iff := by
    -- the first step leaves the pixels of the second one alone
    have hQ : ∀ c r, Q c r = true ∧ pixel b.1 c r = true ↔ Q c r = true ∧ pixel a.1 c r = true := by
      intro c r
      refine and_congr_right fun hq => ?_
      rw [h.pixel_eq, hdisj c r hq, Bool.xor_false]
    simp only [h'.collided_iff, h.collided_iff, hQ, Bool.or_eq_true, or_and_right, exists_or, or_assoc]

end Flips

/-- The first `m` columns of the sprite's row `k`, whose byte is `b`. -/
def rowPicture (cx cy : Byte) (k : Nat) (b : Byte) (m : Nat) (c : Fin 64) (r : Fin 32) : Bool :=
  decide (spriteRow cy r = k) && (decide (spriteCol cx c < m) && b.getLsbD (7 - spriteCol cx c))

/-- The sprite's rows from row `k` on, whose bytes are `bs`. -/
def rowsPicture (cx cy : Byte) (k : Nat) (bs : List Byte) (c : Fin 64) (r : Fin 32) : Bool :=
  decide (k ≤ spriteRow cy r) &&
    (decide (spriteCol cx c < 8) && (bs.getD (spriteRow cy r - k) 0).getLsbD (7 - spriteCol cx c))

theorem rowPicture_succ (cx cy : Byte) (k : Nat) (b : Byte) (m : Nat) (c : Fin 64) (r : Fin 32) :
    rowPicture cx cy k b (m + 1) c r =
      (rowPicture cx cy k b m c r ||
        (decide (spriteRow cy r = k) && (decide (spriteCol cx c = m) && b.getLsbD (7 - m)))) := by
  by_cases h : spriteCol cx c = m
  · simp [rowPicture, h]
  · have hlt : spriteCol cx c < m + 1 ↔ spriteCol cx c < m := by omega
    simp [rowPicture, h, hlt]

theorem rowsPicture_cons (cx cy : Byte) (k : Nat) (b : Byte) (bs : List Byte) (c : Fin 64) (r : Fin 32) :
    rowsPicture cx cy k (b :: bs) c r = (rowPicture cx cy k b 8 c r || rowsPicture cx cy (k + 1) bs c r) := by
  rcases Nat.lt_trichotomy (spriteRow cy r) k with h | h | h
  · have hk : ¬ k + 1 ≤ spriteRow cy r := by omega
    simp [rowsPicture, rowPicture, h.ne, h.not_ge, hk]
  · simp [rowsPicture, rowPicture, h]
  · have hsub : spriteRow cy r - k = spriteRow cy r - (k + 1) + 1 := by omega
    simp [rowsPicture, rowPicture, h.ne', h.le, Nat.succ_le_of_lt h, hsub]

theorem flips_drawBit (cx cy : Byte) (b : Byte) {k col : Nat} (hk : k < 32) (hcol : col < 64)
    (a : FrameBuf × Bool) :
    Flips (fun c r => decide (spriteRow cy r = k) && (decide (spriteCol cx c = col) && b.getLsbD (7 - col))) a
      (drawBit cx (wrapRow cy k) b a col) := by
  simp only [← eq_wrapRow_iff cy hk, ← eq_wrapCol_iff cx hcol]
  unfold drawBit
  split
  case isTrue hb =>
    constructor
    · simp [pixel_toggle, hb, Bool.and_comm]
    · simp [hb]
  case isFalse hb => exact Flips.none fun c r => by simp [hb]

theorem flips_drawBits (cx cy : Byte) (b : Byte) {k m : Nat} (hk : k < 32) (hm : m ≤ 64) (a : FrameBuf × Bool) :
    Flips (rowPicture cx cy k b m) a ((List.range m).foldl (drawBit cx (wrapRow cy k) b) a) := by
  induction m with
  | zero => exact Flips.none fun c r => by simp [rowPicture]
  | succ m ih =>
    rw [List.range_succ, List.foldl_concat]
    refine ((ih (by omega)).trans (flips_drawBit cx cy b hk hm _) fun c r h => ?_).congr fun c r =>
      (rowPicture_succ cx cy k b m c r).symm
    have hcol : spriteCol cx c = m := by simp_all
    simp [rowPicture, hcol]

theorem flips_drawRows (cx cy : Byte) {k : Nat} {bs : List Byte} (hk : k + bs.length ≤ 32) (a : FrameBuf × Bool) :
    Flips (rowsPicture cx cy k bs) a (drawRows cx cy k bs a) := by
  induction bs generalizing k a with
  | nil => exact Flips.none fun c r => by simp [rowsPicture]
  | cons b bs ih =>
    rw [List.length_cons] at hk
    refine ((flips_drawBits cx cy b (by omega) (by decide) a).trans (ih (k := k + 1) (by omega) _)
      fun c r h => ?_).congr fun c r => (rowsPicture_cons cx cy k b bs c r).symm
    have hrow : spriteRow cy r ≠ k := by
      have : k + 1 ≤ spriteRow cy r := by simp_all [rowsPicture]
      omega
    simp [rowPicture, hrow]

/-- Drawing flips the pixels of the sprite's picture. -/
theorem flips_draw (f : FrameBuf) (cx cy : Byte) (p : Sprite) :
    Flips (spriteAt p.rows cx cy) (f, false) (draw f cx cy p) := by
  have hlen : 0 + p.rows.length ≤ 32 := by
    have := p.height_le
    omega
  refine (flips_drawRows cx cy hlen (f, false)).congr fun c r => ?_
  by_cases hr : spriteRow cy r < p.rows.length
  · simp [spriteAt_eq, rowsPicture, hr]
  · simp [spriteAt_eq, rowsPicture, hr]

theorem pixel_draw (f : FrameBuf) (cx cy : Byte) (p : Sprite) (c : Fin 64) (r : Fin 32) :
    pixel (draw f cx cy p).1 c r = (pixel f c r ^^ spriteAt p.rows cx cy c r) :=
  (flips_draw f cx cy p).pixel_eq c r

/-- A collision is a pixel that drawing turns from 1 to 0. -/
theorem draw_collided_iff (f : FrameBuf) (cx cy : Byte) (p : Sprite) :
    (draw f cx cy p).2 = true ↔ ∃ c r, pixel f c r = true ∧ pixel (draw f cx cy p).1 c r = false := by
  simp only [(flips_draw f cx cy p).collided_iff, Bool.false_eq_true, false_or]
  refine exists₂_congr fun c r => and_comm.trans (and_congr_right fun h => ?_)
  rw [pixel_draw, h, Bool.true_xor, Bool.not_eq_false']

theorem draw_draw (f : FrameBuf) (cx cy : Byte) (p : Sprite) : (draw (draw f cx cy p).1 cx cy p).1 = f :=
  ext_pixel fun c r => by rw [pixel_draw, pixel_draw, Bool.xor_assoc, Bool.xor_self, Bool.xor_false]

end FrameBuf

/-- Settles O40: the second draw turns from 1 to 0 the pixels that the first one turned from 0 to 1. -/
theorem drawingTwiceRestoresTheDisplay : Obligations.DrawingTwiceRestoresTheDisplay := by
  intro f cx cy p
  refine ⟨FrameBuf.draw_draw f cx cy p, ?_⟩
  simp only [FrameBuf.draw_collided_iff, FrameBuf.draw_draw, and_comm]

/-! ## DRW (R193, R194) -/

/-- Inside memory by the bound in force, a read gives the bytes. -/
theorem State.readSeq_ok {s : State} {w : Word} {n : Nat}
    (h : (s.cfg.readSeqBound = .legacy16 ∧ w.toNat ≤ 4080) ∨ (s.cfg.readSeqBound = .exact ∧ w.toNat + n ≤ 4096)) :
    s.readSeq w n = .ok (s.bytesFrom w.toNat n) := by
  rcases h with ⟨hc, hw⟩ | ⟨hc, hw⟩
  · rw [readSeq_legacy hc, if_neg (Nat.not_lt.mpr hw)]
  · rw [readSeq_exact hc, if_neg (Nat.not_lt.mpr hw)]

theorem State.readSeq_error {s : State} {w : Word} {n : Nat}
    (h : (s.cfg.readSeqBound = .legacy16 ∧ 4080 < w.toNat) ∨ (s.cfg.readSeqBound = .exact ∧ 4096 < w.toNat + n)) :
    s.readSeq w n = .error (.outOfBounds w) := by
  rcases h with ⟨hc, hw⟩ | ⟨hc, hw⟩
  · rw [readSeq_legacy hc, if_pos hw]
  · rw [readSeq_exact hc, if_pos hw]

/-- DRW draws the bytes that its read gives. -/
theorem exec_drw_ok {x y : RegIdx} {n : Fin 16} {s : State} (hn : n ≠ 0)
    (h : s.readSeq s.i n.val = .ok (s.bytesFrom s.i.toNat n.val)) :
    ∃ p : Sprite, p.rows = s.bytesFrom s.i.toNat n.val ∧
      exec (.drw x y n) s = .next (s.drawSprite (s.getV x) (s.getV y) p).advance := by
  obtain ⟨p, hp, hrows⟩ := Sprite.new_ok (rows := s.bytesFrom s.i.toNat n.val) n.isLt.le
  refine ⟨p, ?_, ?_⟩
  · rw [hrows, List.take_of_length_le (State.length_bytesFrom s _ _).le]
  · simp [exec, execDrw, hn, h, hp]

theorem exec_drw_error {x y : RegIdx} {n : Fin 16} {s : State} {f : Fault} (hn : n ≠ 0)
    (h : s.readSeq s.i n.val = .error f) : exec (.drw x y n) s = raise f s := by
  simp [exec, execDrw, hn, h]

theorem exec_drw_zero_fault {s : State} (hz : s.cfg.drawZeroHeight = .fault) (x y : RegIdx) :
    exec (.drw x y 0) s = raise (.undefined (encode (.drw x y 0))) s := by
  simp [exec, execDrw, hz]

theorem exec_drw_zero_empty {s : State} (hz : s.cfg.drawZeroHeight = .empty) (x y : RegIdx) :
    exec (.drw x y 0) s = .next (s.setVF 0).advance := by
  simp [exec, execDrw, hz]

theorem b2u_eq_one_iff {c : Bool} : b2u c = 1 ↔ c = true := by
  cases c <;> decide

theorem b2u_eq_one_or_zero (c : Bool) : b2u c = 1 ∨ b2u c = 0 := by
  cases c <;> decide

/-- After a draw VF is the collision flag. -/
theorem State.getV_drawSprite_vf (s : State) (cx cy : Byte) (p : Sprite) :
    (s.drawSprite cx cy p).getV vf = b2u (FrameBuf.draw s.fb cx cy p).2 := by
  rw [drawSprite_eq, getV_setVF, if_pos rfl]

theorem RegsExcept.drawSprite (s : State) (cx cy : Byte) (p : Sprite) :
    RegsExcept [vf] s (s.drawSprite cx cy p) :=
  RegsExcept.setV (s.setFb _) vf _

/-- Settles O38: what it says of the display is what `FrameBuf.draw` does to the pixels. -/
theorem drwXorsTheSprite : Obligations.DrwXorsTheSprite := by
  intro x y n s hn hbound
  obtain ⟨p, hrows, hexec⟩ := exec_drw_ok (x := x) (y := y) hn (State.readSeq_ok hbound)
  have hvf : (s.drawSprite (s.getV x) (s.getV y) p).advance.getV 15 =
      b2u (FrameBuf.draw s.fb (s.getV x) (s.getV y) p).2 := s.getV_drawSprite_vf _ _ p
  refine ⟨_, hexec, fun c r => ?_, ?_, ?_, rfl, RegsExcept.drawSprite s _ _ p,
    (Frame.drawSprite s _ _ p).trans (Frame.advance _)⟩
  · rw [← hrows]
    exact FrameBuf.pixel_draw s.fb _ _ p c r
  · rw [hvf]
    exact b2u_eq_one_or_zero _
  · rw [hvf, b2u_eq_one_iff]
    exact FrameBuf.draw_collided_iff s.fb _ _ p

/-- Settles O39: n = 0 is looked at before the bound of the read. -/
theorem drwFaultsWhereItCannotDraw : Obligations.DrwFaultsWhereItCannotDraw := by
  intro x y n s
  refine ⟨?_, ?_, fun hn hbound => ?_⟩
  · rintro rfl hz
    rw [exec_drw_zero_fault hz]
    exact raise_answers _ s
  · rintro rfl hz
    exact ⟨_, exec_drw_zero_empty hz x y, State.getV_setV_same s vf 0, rfl, RegsExcept.setV s vf 0,
      (Frame.setVF s 0).trans (Frame.advance _)⟩
  · rw [exec_drw_error hn (State.readSeq_error hbound)]
    exact raise_answers _ s

/-! ## RND (R190, R191) -/

/-- Settles O37: the byte is the one of the counter before the draw. -/
theorem rndMasksAFreeByte : Obligations.RndMasksAFreeByte := fun x kk s =>
  ⟨_, rfl, State.getV_setV_same s.nextDraw x (Config.freeByte s.draws &&& kk), rfl, rfl,
    RegsExcept.setV s.nextDraw x _,
    (((Frame.nextDraw s).trans (Frame.setV _ x _)).trans (Frame.advance _)).mono (by simp)⟩

/-! ## The key skips (R196, R198, R199) -/

/-- The key that Vx names is its value modulo 16, where it names one. -/
theorem State.keyIndex_ok {s : State} {x : RegIdx}
    (h : (s.getV x).toNat ≤ 15 ∨ s.cfg.keyIndexWide = .lowNibble) (w : Word) :
    s.keyIndex w x = .ok (Fin.ofNat 16 (s.getV x).toNat) := by
  have hmod : Fin.ofNat 16 (s.getV x).toNat = ((s.getV x).extractLsb' 0 4).toFin :=
    Fin.ext (val_lowNibble (s.getV x)).symm
  rw [hmod, keyIndex]
  rcases h with hle | hlow
  · exact digitOf_le hle _ w
  · rw [hlow]
    exact digitOf_lowNibble _ w

theorem State.keyIndex_error {s : State} {x : RegIdx} (h : 15 < (s.getV x).toNat)
    (hp : s.cfg.keyIndexWide = .fault) (w : Word) : s.keyIndex w x = .error (.undefined w) := by
  rw [keyIndex, hp]
  exact digitOf_fault h w

/-- The two key skips differ in their condition on the key that Vx names. -/
theorem commit_key_skip_ok {s : State} {x : RegIdx}
    (h : (s.getV x).toNat ≤ 15 ∨ s.cfg.keyIndexWide = .lowNibble) (w : Word) (g : KeyIdx → Bool) :
    s.commit ((s.keyIndex w x).map fun k => s.skipIf (g k)) =
      .next (s.skipIf (g (Fin.ofNat 16 (s.getV x).toNat))) := by
  rw [State.keyIndex_ok h, map_ok, commit_ok]

theorem commit_key_skip_error {s : State} {x : RegIdx} (h : 15 < (s.getV x).toNat)
    (hp : s.cfg.keyIndexWide = .fault) (w : Word) (g : KeyIdx → Bool) :
    ∃ t, s.commit ((s.keyIndex w x).map fun k => s.skipIf (g k)) = .next t ∧
      t.status = .faulted (.undefined w) ∧ Frame [.status] s t := by
  rw [State.keyIndex_error h hp, map_error, commit_error]
  exact raise_answers _ s

/-- Settles O41: SKNP skips by the negated condition. -/
theorem keySkipsReadTheSnapshot : Obligations.KeySkipsReadTheSnapshot := by
  intro x s
  refine ⟨fun h => ⟨⟨_, commit_key_skip_ok h _ _, rfl, Frame.skipIf s _⟩,
    ⟨_, commit_key_skip_ok h _ _, ?_, Frame.skipIf s _⟩⟩,
    fun h hp => ⟨commit_key_skip_error h hp _ _, commit_key_skip_error h hp _ _⟩⟩
  cases s.keyDownAt (Fin.ofNat 16 (s.getV x).toNat) <;> rfl

/-! ## The wait for a key (R201, R202) -/

theorem State.keyDownAt_pressKey_eq_or (s : State) (k j : KeyIdx) :
    (s.pressKey k).keyDownAt j = (decide (j = k) || s.keyDownAt j) := by
  rw [keyDownAt_pressKey]
  by_cases hj : j = k <;> simp [hj]

theorem Frame.pressKey (s : State) (k : KeyIdx) : Frame [.keys] s (s.pressKey k) := Frame.setKeys s _

/-- A key number is a byte. -/
theorem toNat_keyByte (k : KeyIdx) : (BitVec.ofNat 8 k.val : Byte).toNat = k.val :=
  (BitVec.toNat_ofNat _ _).trans (Nat.mod_eq_of_lt (k.isLt.trans (by decide)))

/-- Settles O42: only a waiting machine does more than set the key. -/
theorem waitForKeyUntilAKeyDownEdge : Obligations.WaitForKeyUntilAKeyDownEdge := by
  refine ⟨fun x s => ⟨_, rfl, rfl, Frame.setStatus s _⟩, fun s x k hwait => ?_, fun s k hnot => ?_⟩
  · rw [State.keyDown_waiting hwait]
    refine ⟨?_, rfl, rfl, s.keyDownAt_pressKey_eq_or k, RegsExcept.setV (s.pressKey k) x _, ?_⟩
    · rw [State.getV_setStatus, State.getV_advance, State.getV_setV_same, toNat_keyByte]
    · exact ((((Frame.pressKey s k).trans (Frame.setV _ x _)).trans (Frame.advance _)).trans
        (Frame.setStatus _ _)).mono (by simp)
  · rw [State.keyDown_of_not_waiting hnot]
    exact ⟨s.keyDownAt_pressKey_eq_or k, Frame.pressKey s k⟩

end Sys2Proof.Machine

/-! # The timers: what the instructions of 43_timers.md read and set -/

namespace Sys2Proof.Machine

/-- Settles O43. -/
theorem delayTimerIsReadAndSet : Obligations.DelayTimerIsReadAndSet := fun x s =>
  ⟨⟨_, rfl, State.getV_setV_same s x s.dt, rfl, RegsExcept.setV s x _, (Frame.setV s x _).trans (Frame.advance _)⟩,
    ⟨_, rfl, rfl, rfl, (Frame.setDT s _).trans (Frame.advance _)⟩,
    fun strict => decodeOfEncodeIsTheInstruction strict (.ldVxDT x) rfl,
    fun strict => decodeOfEncodeIsTheInstruction strict (.ldDTVx x) rfl⟩

/-- The tone sounds exactly while the sound timer is not 0 (10_state.md R38). -/
@[simp] theorem State.tone_eq_true_iff {s : State} : s.tone = true ↔ s.st ≠ 0 := bne_iff_ne

/-- Settles O44: the tone follows the sound timer, which is Vx. -/
theorem soundTimerIsSet : Obligations.SoundTimerIsSet := fun x s =>
  ⟨_, rfl, rfl, State.tone_eq_true_iff, rfl, (Frame.setST s (s.getV x)).trans (Frame.advance _)⟩

end Sys2Proof.Machine

/-! # The index register, the font digit and the block moves (44_index_memory.md) -/

namespace Sys2Proof.Machine

/-! ## How an instruction that checks its access ends -/

/-- A check that passes ends the step in the completion of its value. -/
theorem commit_map_of_eq_ok {α : Type} {s : State} {r : Except Fault α} {a : α} (h : r = .ok a) (g : α → State) :
    s.commit (r.map g) = .next (g a) := by
  rw [h, map_ok, commit_ok]

/-- A check that fails ends the step in its fault, and nothing but the status is written (60_exceptions.md R272). -/
theorem commit_map_answers_fault {α : Type} {s : State} {r : Except Fault α} {f : Fault} (h : r = .error f)
    (g : α → State) :
    ∃ t, s.commit (r.map g) = .next t ∧ t.status = .faulted f ∧ Frame [.status] s t := by
  rw [h, map_error, commit_error]
  exact raise_answers f s

/-! ## LD I and ADD I (R240, R241) -/

/-- Settles O48. -/
theorem ldILoadsTheAddress : Obligations.LdILoadsTheAddress := fun nnn s =>
  ⟨_, rfl, toNat_addrOf nnn, rfl, (Frame.setI s _).trans (Frame.advance _),
    fun strict => decodeOfEncodeIsTheInstruction strict (.ldI nnn) rfl⟩

/-- Settles O49: the sum is one of words, so it wraps. -/
theorem addIAddsWithoutFlag : Obligations.AddIAddsWithoutFlag := by
  intro x s
  refine ⟨_, rfl, ?_, rfl, (Frame.setI s _).trans (Frame.advance _)⟩
  rw [State.advance_i, State.setI_i, BitVec.toNat_add, toNat_wordOf]

/-! ## LD F (R242) -/

/-- The digit that Vx names is its low nibble, where it names one. -/
theorem State.fontDigit_ok {s : State} {x : RegIdx}
    (h : (s.getV x).toNat ≤ 15 ∨ s.cfg.fontDigitWide = .lowNibble) (w : Word) :
    s.fontDigit w x = .ok ((s.getV x).extractLsb' 0 4).toFin := by
  rw [fontDigit]
  rcases h with hle | hlow
  · exact digitOf_le hle _ w
  · rw [hlow]
    exact digitOf_lowNibble _ w

theorem State.fontDigit_error {s : State} {x : RegIdx} (h : 15 < (s.getV x).toNat)
    (hp : s.cfg.fontDigitWide = .fault) (w : Word) : s.fontDigit w x = .error (.undefined w) := by
  rw [fontDigit, hp]
  exact digitOf_fault h w

theorem State.toNat_glyphAddr (s : State) (d : Fin 16) :
    (s.glyphAddr d).toNat = (s.cfg.fontBase.toNat + 5 * d.val) % 65536 := by
  rw [glyphAddr, BitVec.toNat_add, BitVec.toNat_ofNat, Nat.add_mod_mod]

/-- Settles O50: the digit is Vx modulo 16, and a digit that Vx does not name faults with the word. -/
theorem ldFPointsAtTheGlyph : Obligations.LdFPointsAtTheGlyph := by
  intro x s
  constructor
  · intro h
    refine ⟨_, commit_map_of_eq_ok (State.fontDigit_ok h _) _, ?_, rfl, (Frame.setI s _).trans (Frame.advance _)⟩
    rw [State.advance_i, State.setI_i, State.toNat_glyphAddr, val_lowNibble]
  · intro h hp
    exact commit_map_answers_fault (State.fontDigit_error h hp _) _

/-! ## LD B (R243, 20_memory.md R66) -/

/-- A byte has no more than three digits, so the first one is the whole quotient by 100. -/
theorem hundreds_of_byte (b : Byte) : b.toNat / 100 % 10 = b.toNat / 100 := by
  have hb := b.isLt
  omega

/-- Settles O51: the digit at I + k is that of 10^(2 - k). -/
theorem ldBStoresTheDigits : Obligations.LdBStoresTheDigits := by
  intro x s hw
  refine ⟨fun hin => ?_, fun hout => ?_, fun strict => decodeOfEncodeIsTheInstruction strict (.ldB x) rfl⟩
  · have hexec : exec (.ldB x) s = _ := execLdB_ok hin
    have hbytes := byteAt_after_ldB hw hin hexec
    have hdigit (k : Nat) (hk : k ≤ 2) := (hbytes (s.i.toNat + k)).1 k hk rfl
    refine ⟨_, hexec, ?_, ?_, ?_, ?_, rfl, (Frame.putBytes s _ _).trans (Frame.advance _)⟩
    · exact (hdigit 0 (by decide)).trans (hundreds_of_byte _)
    · exact hdigit 1 (by decide)
    · exact (hdigit 2 le_rfl).trans (by rw [Nat.sub_self, pow_zero, Nat.div_one])
    · exact fun a ha => (hbytes a).2 ha
  · exact commit_map_answers_fault (State.writeSeq_error (by rw [State.length_bcdDigits]; omega)) _

/-! ## I after a block move (R244, R245, D10) -/

section

variable {s : State}

theorem State.indexAfterBlock_unchanged (hc : s.cfg.loadStoreI = .unchanged) (x : RegIdx) :
    s.indexAfterBlock x = s.i := by
  simp [indexAfterBlock, hc]

theorem State.toNat_indexAfterBlock_plusXPlus1 (hc : s.cfg.loadStoreI = .plusXPlus1) (x : RegIdx) :
    (s.indexAfterBlock x).toNat = (s.i.toNat + x.val + 1) % 65536 := by
  simp [indexAfterBlock, hc, Nat.add_assoc]

theorem State.toNat_indexAfterBlock_plusX (hc : s.cfg.loadStoreI = .plusX) (x : RegIdx) :
    (s.indexAfterBlock x).toNat = (s.i.toNat + x.val) % 65536 := by
  simp [indexAfterBlock, hc]

/-- Both block moves complete in the same way: once the block is moved, I takes its new value and pc goes on. -/
theorem State.setI_indexAfterBlock_advance {u : State} {l : List Part} (hu : Frame l s u) (hl : .pc ∉ l) (x : RegIdx) :
    let t := (u.setI (s.indexAfterBlock x)).advance
    (s.cfg.loadStoreI = .unchanged → t.i = s.i) ∧
      (s.cfg.loadStoreI = .plusXPlus1 → t.i.toNat = (s.i.toNat + x.val + 1) % 65536) ∧
      (s.cfg.loadStoreI = .plusX → t.i.toNat = (s.i.toNat + x.val) % 65536) ∧
      t.pc = s.pc + 2 ∧ Frame (l ++ [.index, .pc]) s t :=
  ⟨fun hc => indexAfterBlock_unchanged hc x, fun hc => toNat_indexAfterBlock_plusXPlus1 hc x,
    fun hc => toNat_indexAfterBlock_plusX hc x, congrArg (· + 2) (hu .pc hl),
    hu.trans ((Frame.setI u _).trans (Frame.advance _))⟩

end

/-! ## LD [I] (R244, 20_memory.md R65) -/

/-- Settles O52. -/
theorem storeRegsStoresTheBlock : Obligations.StoreRegsStoresTheBlock := by
  intro x s hw
  constructor
  · intro hin
    have hexec : exec (.storeRegs x) s = _ := execStoreRegs_ok hin
    have hbytes := byteAt_after_storeRegs hw hin hexec
    exact ⟨_, hexec, fun k hk => (hbytes _).1 k hk rfl, fun a ha => (hbytes a).2 ha,
      State.setI_indexAfterBlock_advance (Frame.putBytes s _ _) (by decide) x⟩
  · intro hout
    exact commit_map_answers_fault (State.writeSeq_error (by rw [State.length_regsUpTo]; omega)) _

/-! ## LD Vx, [I] (R245, 20_memory.md R63) -/

/-- A loaded register holds the byte of its place in the block. -/
theorem State.getV_setRegs_bytesFrom (s : State) (a : Nat) {n : Nat} {k : RegIdx} (hk : k.val < n) :
    (s.setRegs (s.bytesFrom a n)).getV k = s.byteAt (a + k.val) := by
  rw [getV_setRegs, List.getD_eq_getElem _ _ (by rwa [length_bytesFrom]), getElem_bytesFrom]

/-- Settles O53: READ_SEQ_BOUND decides whether the block is read, and a register above Vx is past its end. -/
theorem loadRegsLoadsTheBlock : Obligations.LoadRegsLoadsTheBlock := by
  intro x s
  constructor
  · intro hin
    have hread := State.readSeq_ok (n := x.val + 1) (hin.imp_right (And.imp_right Nat.succ_le_succ))
    have hkept := RegsExcept.setRegs s x (State.length_bytesFrom s s.i.toNat (x.val + 1))
    have hexec : exec (.loadRegs x) s = _ := commit_map_of_eq_ok hread _
    refine ⟨_, hexec, fun k hk => ?_, fun k hk => ?_,
      State.setI_indexAfterBlock_advance (Frame.setRegs s _) (by decide) x⟩
    · rw [State.getV_advance, State.getV_setI, State.getV_setRegs_bytesFrom _ _ (Nat.lt_succ_of_le hk)]
    · rw [State.getV_advance, State.getV_setI, hkept k (by simpa using hk)]
  · intro hout
    exact commit_map_answers_fault (State.readSeq_error (hout.imp_right (And.imp_right Nat.succ_lt_succ))) _

end Sys2Proof.Machine

/-! # Every step answers a next state, a faulted machine stays as it is, and the timers tick (60_exceptions.md) -/

namespace Sys2Proof.Machine

/-! ## Steps and transactions answer a next state (R272, log entry 5) -/

/-- The end of a step is a next state whether its check passed or failed: a fault is entered in the status. -/
theorem State.commit_answers_next (s : State) (r : Except Fault State) : ∃ t, s.commit r = .next t := by
  cases r with
  | ok t => exact ⟨t, commit_ok s t⟩
  | error f => exact ⟨_, raise_eq f s⟩

theorem exec_sys_answers_next (nnn : Addr12) (s : State) : ∃ t, exec (.sys nnn) s = .next t := by
  cases hp : s.cfg.sysPolicy with
  | fault => exact ⟨_, exec_sys_fault hp nnn⟩
  | nop => exact ⟨_, exec_sys_nop hp nnn⟩

/-- DRW has no rows to draw, or reads them and draws them, or faults in the read. -/
theorem exec_drw_answers_next (x y : RegIdx) (n : Fin 16) (s : State) : ∃ t, exec (.drw x y n) s = .next t := by
  by_cases hn : n = 0
  · subst hn
    cases hz : s.cfg.drawZeroHeight with
    | fault => exact ⟨_, exec_drw_zero_fault hz x y⟩
    | empty => exact ⟨_, exec_drw_zero_empty hz x y⟩
  · cases hread : s.readSeq s.i n.val with
    | error f => exact ⟨_, exec_drw_error hn hread⟩
    | ok rows =>
      obtain ⟨p, -, hexec⟩ := exec_drw_ok (x := x) (y := y) hn (State.readSeq_eq_ok hread ▸ hread)
      exact ⟨_, hexec⟩

theorem exec_answers_next (i : Instr) (s : State) : ∃ t, exec i s = .next t := by
  cases i with
  | sys nnn => exact exec_sys_answers_next nnn s
  | drw x y n => exact exec_drw_answers_next x y n s
  | ret | call | skp | sknp | ldF | ldB | storeRegs | loadRegs => exact s.commit_answers_next _
  -- no other instruction has a check that can fail
  | cls | jp | seByte | sneByte | seReg | ldByte | addByte | ldReg | orReg | andReg | xorReg | addReg | subReg | shr
  | subnReg | shl | sneReg | ldI | jpV0 | rnd | ldVxDT | ldVxK | ldDTVx | ldSTVx | addI => exact ⟨_, rfl⟩

theorem step_answers_next (s : State) : ∃ t, step s = .next t := by
  rcases step_cases s with ⟨-, hs⟩ | ⟨-, f, -, hs⟩ | ⟨-, i, -, hs⟩
  · exact ⟨s, hs⟩
  · exact ⟨_, hs⟩
  · rw [hs]
    exact exec_answers_next i s

theorem Transaction.apply_answers_next (t : Transaction) (s : State) : ∃ u, t.apply s = .next u := by
  cases t with
  | step => exact step_answers_next s
  | reset | loadRom | tickTimers | setKeys | keyDown => exact ⟨_, rfl⟩

/-- Settles O14: no transaction of a sequence ends it early. -/
theorem everyStepAnswersANextState : Obligations.EveryStepAnswersANextState := by
  refine ⟨step_answers_next, fun ts => ?_⟩
  induction ts with
  | nil => exact fun s => ⟨s, runAll_nil s⟩
  | cons t ts ih =>
    intro s
    obtain ⟨u, hu⟩ := t.apply_answers_next s
    rw [runAll_cons_next hu]
    exact ih u

/-! ## One tick (R285, R286) -/

namespace State

theorem tickTimers_faulted {s : State} {f : Fault} (h : s.status = .faulted f) : s.tickTimers = s := by
  simp [tickTimers, h]

theorem tickTimers_of_not_faulted {s : State} (h : ∀ f, s.status ≠ .faulted f) :
    s.tickTimers = (s.setDT (tickDown s.dt)).setST (tickDown s.st) := by
  cases hs : s.status with
  | faulted f => exact absurd hs (h f)
  | running | waiting => simp [tickTimers, hs]

theorem toNat_tickDown (b : Byte) : (tickDown b).toNat = b.toNat - 1 := by
  by_cases hb : b = 0
  · simp [tickDown, hb]
  · rw [tickDown, if_neg hb]
    bv_omega

end State

/-- Settles O45. -/
theorem tickTouchesOnlyTheTimers : Obligations.TickTouchesOnlyTheTimers := by
  refine fun s => ⟨fun h => ?_, fun ⟨_, hf⟩ => State.tickTimers_faulted hf⟩
  rw [State.tickTimers_of_not_faulted h]
  exact ⟨State.toNat_tickDown s.dt, State.toNat_tickDown s.st, (Frame.setDT s _).trans (Frame.setST _ _)⟩

/-! ## Many ticks (R288) -/

/-- Settles O46, by induction on the number of ticks: a tick leaves the status, so the next one counts too. -/
theorem timersDecayMonotonically : Obligations.TimersDecayMonotonically := by
  intro n
  induction n with
  | zero => exact fun s _ => ⟨rfl, rfl⟩
  | succ n ih =>
    intro s h
    obtain ⟨hdt, hst, hframe⟩ := (tickTouchesOnlyTheTimers s).1 h
    have hstatus : s.tickTimers.status = s.status := hframe .status (by decide)
    obtain ⟨hdts, hsts⟩ := ih s.tickTimers (hstatus ▸ h)
    rw [State.ticks, hdts, hsts]
    omega

/-! ## A faulted machine (R273) -/

/-- A state that none of the transactions changes is where their sequence ends. -/
theorem runAll_eq_self {ts : List Transaction} {s : State} (h : ∀ t ∈ ts, t.apply s = .next s) :
    runAll ts s = .next s := by
  induction ts with
  | nil => exact runAll_nil s
  | cons t ts ih =>
    obtain ⟨ht, hts⟩ := List.forall_mem_cons.mp h
    rw [runAll_cons_next ht]
    exact ih hts

/-- Settles O13: neither a step nor a tick changes a faulted machine. -/
theorem faultedMachineIsTerminal : Obligations.FaultedMachineIsTerminal := by
  intro s f ts hf hts
  refine runAll_eq_self fun t ht => ?_
  rcases hts t ht with rfl | rfl
  · exact step_faulted hf
  · exact congrArg _ (State.tickTimers_faulted hf)

end Sys2Proof.Machine

/-! # Reset and the loading of a ROM (70_reset_and_hazards.md) -/

namespace Sys2Proof.Machine

/-! ## Loading a ROM (R314, D27) -/

namespace State

theorem loadRom_of_le {rom : List Byte} (h : rom.length ≤ 3584) (s : State) :
    s.loadRom rom = (s.putBytes 0x200 rom).setPc 0x200 := by
  rw [loadRom, if_neg (Nat.not_lt.mpr h)]

theorem loadRom_of_gt {rom : List Byte} (h : 3584 < rom.length) (s : State) :
    s.loadRom rom = s.setStatus (.faulted (.outOfBounds 0x1000)) := by
  rw [loadRom, if_pos h]

end State

/-- Settles O3: a ROM that fits is one block store at 0x200, whose last address is at most 0x200 + 3583 = 4095, and a
jump there; a longer one is a fault. -/
theorem loadRomPlacesTheBytes : Obligations.LoadRomPlacesTheBytes := by
  refine fun s rom hmem => ⟨fun hfits => ?_, fun hlong => ?_⟩
  · rw [State.loadRom_of_le hfits]
    refine ⟨fun k hk => ?_, fun a ha => ?_, rfl, (Frame.putBytes s 0x200 rom).trans (Frame.setPc _ 0x200)⟩
    · rw [State.byteAt_setPc]
      exact State.byteAt_putBytes_inside hmem (by omega) hk
    · rw [State.byteAt_setPc]
      exact State.byteAt_putBytes_outside s ha
  · rw [State.loadRom_of_gt hlong]
    exact ⟨rfl, Frame.setStatus s _⟩

/-! ## The contents of memory at reset (R40, R41) -/

theorem resetByte_font (c : Config) {j : Nat} (h : j < 80) :
    resetByte c (c.fontBase.toNat + j) = c.fontData.getD j 0 := by
  rw [resetByte, if_pos (by omega), Nat.add_sub_cancel_left]

theorem resetByte_outside_font (c : Config) {a : Nat} (h : a < c.fontBase.toNat ∨ c.fontBase.toNat + 80 ≤ a) :
    resetByte c a = 0 := by
  rw [resetByte, if_neg (by omega)]

/-- Memory lists no byte after a reset, so every address reads as its reset contents. -/
theorem State.byteAt_resetWith (c : Config) (d : ResetDraw) (n a : Nat) :
    (State.resetWith c d n).byteAt a = resetByte c a := Memory.read_nil _ a

/-! ## The registers at reset (R22, R311) -/

namespace ResetDraw

theorem chosen_of_zero {c : Config} (h : c.resetRegs = .zero) (d : ResetDraw) : d.chosen c = ResetDraw.zero := by
  simp only [chosen, h]

theorem chosen_of_arbitrary {c : Config} (h : c.resetRegs = .arbitrary) (d : ResetDraw) : d.chosen c = d := by
  simp only [chosen, h]

end ResetDraw

namespace State

@[simp] theorem resetWith_v (c : Config) (d : ResetDraw) (n : Nat) : (resetWith c d n).v = (d.chosen c).v := rfl
@[simp] theorem resetWith_i (c : Config) (d : ResetDraw) (n : Nat) : (resetWith c d n).i = (d.chosen c).i := rfl
@[simp] theorem resetWith_dt (c : Config) (d : ResetDraw) (n : Nat) : (resetWith c d n).dt = (d.chosen c).dt := rfl
@[simp] theorem resetWith_st (c : Config) (d : ResetDraw) (n : Nat) : (resetWith c d n).st = (d.chosen c).st := rfl

theorem keyDownAt_resetWith (c : Config) (d : ResetDraw) (n : Nat) (k : KeyIdx) :
    (resetWith c d n).keyDownAt k = false := Vector.getElem_replicate k.isLt

/-- Under RESET_REGS = zero every register is 0, and so there is no tone (D2). -/
theorem resetWith_zero {c : Config} (h : c.resetRegs = .zero) (d : ResetDraw) (n : Nat) :
    (∀ k, (resetWith c d n).getV k = 0) ∧ (resetWith c d n).i = 0 ∧ (resetWith c d n).dt = 0 ∧
      (resetWith c d n).st = 0 ∧ (resetWith c d n).tone = false := by
  simp [getV, tone, ResetDraw.chosen_of_zero h, ResetDraw.zero]

/-- Under RESET_REGS = arbitrary every register is what the environment chose. -/
theorem resetWith_arbitrary {c : Config} (h : c.resetRegs = .arbitrary) (d : ResetDraw) (n : Nat) :
    (∀ k : RegIdx, (resetWith c d n).getV k = d.v[k]) ∧ (resetWith c d n).i = d.i ∧ (resetWith c d n).dt = d.dt ∧
      (resetWith c d n).st = d.st := by
  simp [getV, ResetDraw.chosen_of_arbitrary h]

end State

/-! ## The state after a reset (R310 to R312) -/

/-- Settles O1: the display is blank, memory lists no byte, and RESET_REGS chooses the registers. -/
theorem resetLeavesTheStatedState : Obligations.ResetLeavesTheStatedState := by
  refine ⟨fun c d n => ⟨rfl, rfl, rfl, rfl, FrameBuf.pixel_blank, State.keyDownAt_resetWith c d n,
    fun j hj => ?_, fun a ha => ?_, fun h => State.resetWith_zero h d n, fun h => State.resetWith_arbitrary h d n⟩,
    rfl, fun _ => ⟨_, _, rfl⟩⟩
  · rw [State.byteAt_resetWith, resetByte_font c hj]
  · rw [State.byteAt_resetWith, resetByte_outside_font c ha]

/-- The defaults of R8's table are values it allows: 80 font bytes, placed below 0x200. -/
theorem config_default_wf : Config.default.wf = true := by decide

/-- Settles O2. -/
theorem resetMeetsTheInvariant : Obligations.ResetMeetsTheInvariant :=
  ⟨fun _ d n hc => resetWith_inv hc d n, config_default_wf⟩

end Sys2Proof.Machine
